-- ==== Sys2Proof/Word.lean ====
section
/-! DEFINITION. The word types of the Frame Codec: what the spec treats as bits of a fixed width. -/

namespace Sys2Proof

/-- The addressable unit of a byte buffer, 8 bits (R25). -/
abbrev Byte := BitVec 8

/-- An `OPSEL3` operation select, the 3 bits of the port `op` (R42). -/
abbrev OpCode := BitVec 3

/-- A binary16 bit pattern (R11, R47). -/
abbrev F16 := BitVec 16

/-- A binary32 bit pattern (R11, R48). -/
abbrev F32 := BitVec 32

/-- A record as the 48-bit value of a record port: byte `k` is bits `8k+7 .. 8k` (R28). -/
abbrev Rec := BitVec 48

end Sys2Proof
end

