-- ==== Sys2Proof/Config.lean ====
section
/-! DEFINITION. The build-time parameters of an instance (R7, R21), and the one free value. The parameters are held in State, so that
every instance the spec allows is a state of the model; no operation reads them out and none changes them. -/

namespace Sys2Proof

/-- The parameters of R7. `maxN = none` is the unbounded `MAX_N`. -/
structure Params where
  /-- `TD_W`: width of the `time_delta` ports, at least 11. -/
  tdW : Nat
  /-- `BS_W`: width of the `button_state` ports, at least 6. -/
  bsW : Nat
  /-- `HAS_CVT`: whether `CVT.H.S` and `CVT.S.H` are exposed as operations. -/
  hasCvt : Bool
  /-- `MAX_N`: the largest record count a stream operation accepts; `none` is unbounded. -/
  maxN : Option Nat
  /-- `LATENCY`: no rule depends on it (R114). -/
  latency : Nat
  deriving DecidableEq, Repr

/-- The instance State.reset holds: R7's column "value for this hardware" for the widths and `HAS_CVT`.
DESIGN CHOICE (log entry 2): `MAX_N` and `LATENCY` are `OPEN` in R7; here unbounded and 0. -/
def Params.hardware : Params :=
  { tdW := 16, bsW := 8, hasCvt := true, maxN := none, latency := 0 }

/-- The fields `td`, `bs`, `x`, `y` of a sample. -/
abbrev Config.SampleFields := Nat × Nat × F32 × F32

/-- A free value (log entry 21): the fields that element `index` of `sin` reads as once DECS has written `sout` over its host memory.
The layout of a sample in host memory is in no source (N11), so nothing is known of it. It may depend on all that bears on it: how many
such writes there were (`draw`), the samples that stood there (`old`) and those written (`written`), and the base and the size of
the regions of `sin` and `sout`. -/
opaque Config.freeSample (draw index : Nat) (old written : List Config.SampleFields) (sinBase sinSize soutBase soutSize : Nat) :
  Config.SampleFields

end Sys2Proof
end

