-- ==== Sys2Proof/Syntax.lean ====
section
/-! DEFINITION. The operations of `FC-OPS v1`, one constructor per row of spec/opcode_table.json (R43). The format
`OPSEL3` has no operand fields (R42): operands are on the ports of State. -/

namespace Sys2Proof

inductive Instr where
  /-- `ENC`, code `000`: encode one sample into one record (R61). -/
  | enc
  /-- `DEC`, code `001`: decode one record into one sample (R71). -/
  | dec
  /-- `CVT.H.S`, code `010`: convert F32 to F16 (R89). -/
  | cvtHS
  /-- `CVT.S.H`, code `011`: convert F16 to F32 (R90). -/
  | cvtSH
  /-- `ENCS`, code `100`: encode a sample sequence into a byte buffer (R63). -/
  | encs
  /-- `DECS`, code `101`: decode a byte buffer into a sample sequence (R73). -/
  | decs
  deriving DecidableEq, Repr

end Sys2Proof
end

