-- ==== Sys2Proof/WellFormed.lean ====
section
/-! DEFINITION. What a legal instance is (R7) and which operations an instance has (R43, R44). -/

namespace Sys2Proof

/-- The legal values of R7: `TD_W >= 11`, `BS_W >= 6`, `MAX_N >= 1` or unbounded. -/
def Params.legal (p : Params) : Bool :=
  decide (11 ≤ p.tdW) && decide (6 ≤ p.bsW) && p.maxN.all (fun k => decide (1 ≤ k))

/-- R43's column "available when": the converters exist only with `HAS_CVT = true`. -/
def WellFormed (p : Params) : Instr → Bool
  | .enc => true
  | .dec => true
  | .cvtHS => p.hasCvt
  | .cvtSH => p.hasCvt
  | .encs => true
  | .decs => true

end Sys2Proof
end

