-- ==== Sys2Proof/Decode.lean ====
section
/-! DEFINITION. The operation-select decoder and encoder (R42, R43, R44). The decoder is total on the 3 bits of `op`. -/

namespace Sys2Proof

/-- Why an operation select names no operation. -/
inductive Rejection where
  /-- Codes `110` and `111` are reserved (R44). -/
  | reservedOp (op : OpCode)
  deriving DecidableEq, Repr

/-- R43's map. Whether the instance has a converter is not the decoder's business: a converter code on an
instance without converters is refused as `CvtAbsent`, not as `ReservedOp` (R97). -/
def decode (op : OpCode) : Except Rejection Instr :=
  match op.toNat with
  | 0 => .ok .enc
  | 1 => .ok .dec
  | 2 => .ok .cvtHS
  | 3 => .ok .cvtSH
  | 4 => .ok .encs
  | 5 => .ok .decs
  | _ => .error (.reservedOp op)

/-- The operation code of each operation (R43). -/
def encode : Instr → OpCode
  | .enc => 0b000#3
  | .dec => 0b001#3
  | .cvtHS => 0b010#3
  | .cvtSH => 0b011#3
  | .encs => 0b100#3
  | .decs => 0b101#3

/-- The select carried by a table word: its 3 low bits. `op` has 3 wires, so no higher bit of the word reaches it (R42). -/
def opOfTableWord (w : Nat) : OpCode := BitVec.ofNat 3 w

/-- The instruction the decoder reads from a word numbered as spec/opcode_table.json numbers it (R42). -/
def decodeTableWord (_nbits w : Nat) : Option Instr :=
  match decode (opOfTableWord w) with
  | .ok i => some i
  | .error _ => none

theorem decode_encode (i : Instr) : decode (encode i) = .ok i := by
  cases i <;> rfl

/-- A code decodes to an operation exactly when it is that operation's code: no two codes share an operation. -/
theorem decode_eq_ok_iff (op : OpCode) (i : Instr) : decode op = .ok i ↔ op = encode i := by
  revert op
  cases i <;> decide

/-- The rejected codes are the two reserved ones (R44). -/
theorem decode_eq_error_iff (op : OpCode) (r : Rejection) :
    decode op = .error r ↔ (op = 0b110#3 ∨ op = 0b111#3) ∧ r = .reservedOp op := by
  obtain ⟨o⟩ := r
  revert op o
  decide

end Sys2Proof
end

