-- ==== Sys2Proof/Machine/State.lean ====
section
/-! DEFINITION. The state of one Frame Codec instance as plain data: parameters, ports, where the host keeps the stream
operands, the stream sequencer's hidden values, and what the host does next. The block has no registers, program counter,
flags or control registers (R15, R19, R20, R21). -/

namespace Sys2Proof.Machine

/-- A sample `{td, bs, x, y}` (R12, R22). `td` has `TD_W` bits and `bs` has `BS_W` bits; both widths are parameters of
the instance, so the pattern is held as the number below `2^TD_W` (`2^BS_W`) that it denotes, and `Sample.fits` says so. -/
structure Sample where
  td : Nat
  bs : Nat
  x : F32
  y : F32
  deriving DecidableEq, Repr

/-- A byte buffer (R10, R25): `len` bytes at the offsets `0 .. len-1`. `cells` lists the bytes that are not zero, offsets
strictly rising and below `len` (`Buffer.wf`); an offset below `len` that is not listed holds 0 (log entry 6). -/
structure Buffer where
  len : Nat
  cells : List Host.Cell
  deriving DecidableEq, Repr

/-- A region of host memory: `size` addresses from `base`. The width of a host address is the host's business (R25). -/
structure Region where
  base : Nat
  size : Nat
  deriving DecidableEq, Repr

/-- The input ports of R16, driven by the host. -/
structure InPorts where
  op : OpCode
  tdIn : Nat
  bsIn : Nat
  xIn : F32
  yIn : F32
  recIn : Rec
  fIn : F32
  hIn : F16
  sin : List Sample
  ibuf : Buffer
  deriving DecidableEq, Repr

/-- Where the host keeps the operands of stream operations (R25, R33, R37). The sizes of `ibuf` and `obuf` are their lengths,
so only their bases stand here; the layout of a sample in host memory is in no source (N11), so the host states the
regions of `sin` and `sout` whole. These regions decide what may overlap (R37, R105) and what the host may touch while an operation
runs (R36, R111), and which input a stream operation of this instance writes over (R36: `State.storeBytes`, `State.storeSamples`).
Nothing else that is written to memory under another name changes an input port (log entry 18), and an output port keeps what its
operation drove until the next operation or reset (log entry 20). -/
structure Placement where
  sinAt : Region
  ibufAt : Nat
  obufAt : Nat
  soutAt : Region
  deriving DecidableEq, Repr

/-- The output ports of R16. `none` is the spec's "unspecified": a model gives the port no value (R17, R24). -/
structure OutPorts where
  recOut : Option Rec
  tdOut : Option Nat
  bsOut : Option Nat
  xOut : Option F32
  yOut : Option F32
  hOut : Option F16
  fOut : Option F32
  obuf : Option Buffer
  sout : Option (List Sample)
  deriving DecidableEq, Repr

/-- No output port driven (R17, R24). -/
def OutPorts.undriven : OutPorts :=
  { recOut := none, tdOut := none, bsOut := none, xOut := none, yOut := none,
    hOut := none, fOut := none, obuf := none, sout := none }

/-- The hidden values of the stream sequencer (R23). -/
structure Sequencer where
  busy : Bool
  n : Nat
  i : Nat
  deriving DecidableEq, Repr

/-- The names of the inputs: the ports of R16 and the regions of `Placement`. -/
inductive InPort where
  | op | tdIn | bsIn | xIn | yIn | recIn | fIn | hIn | sin | ibuf
  | sinRegion | ibufRegion | obufRegion | soutRegion
  deriving DecidableEq, Repr

/-- The names of the output ports (R16). -/
inductive OutPort where
  | recOut | tdOut | bsOut | xOut | yOut | hOut | fOut | obuf | sout
  deriving DecidableEq, Repr

/-- The host puts a value on one input (R14, R16). -/
inductive Drive where
  | op (v : OpCode)
  | tdIn (v : Nat)
  | bsIn (v : Nat)
  | xIn (v : F32)
  | yIn (v : F32)
  | recIn (v : Rec)
  | fIn (v : F32)
  | hIn (v : F16)
  | sin (v : List Sample)
  | ibuf (v : List Byte)
  | sinRegion (r : Region)
  | ibufRegion (base : Nat)
  | obufRegion (base : Nat)
  | soutRegion (r : Region)
  deriving DecidableEq, Repr

/-- What the host does while an operation is in progress (R36, R109, R111, R112). -/
inductive HostEvent where
  /-- Drives an input; for a buffer or sequence this is any write to its bytes or elements (R111). -/
  | drive (d : Drive)
  /-- Reads an output port; for `obuf` and `sout`, their regions of host memory (R111, R112). -/
  | readOutput (p : OutPort)
  /-- The host or another agent reads host memory (R36). -/
  | readMemory (r : Region)
  /-- The host or another agent writes host memory (R36); new bytes of an input are said with `drive` (log entry 18). -/
  | writeMemory (r : Region)
  /-- Starts the next operation (R112). -/
  | startNext
  /-- Asserts reset (R109). -/
  | assertReset
  deriving DecidableEq, Repr

/-- What the host does between operations (R14, R108). -/
inductive HostAction where
  | drive (d : Drive)
  | reset
  deriving DecidableEq, Repr

/-- The host's part in one operation: what it does while the operation runs, then what it does before the next one. -/
structure Turn where
  during : List HostEvent
  after : List HostAction
  deriving DecidableEq, Repr

/-- The block raises no exception (R96), and "No behaviour of this block is treated as `fault` or `stuck`"
(93_implementation_defined.md): there is no fault. Nobody raises one. -/
inductive Fault where
  deriving DecidableEq, Repr

/-- The refusal reasons of R98, and the row's own `notModelled`. Each is the model's verdict, not a hardware exception;
each is safe: it errs toward unprovable (R98). -/
inductive Refusal where
  /-- An arm of `exec` without a meaning. No arm raises it: every operation has its meaning. Safe. -/
  | notModelled (mnemonic : String)
  /-- `op` is `110` or `111` (R97). Raised by `step`. Safe. -/
  | reservedOp
  /-- `op` is `010` or `011` and `HAS_CVT = false` (R97). Raised by CVT.H.S and CVT.S.H. Safe. -/
  | cvtAbsent
  /-- The record count exceeds a bounded `MAX_N` (R66, R75). Raised by ENCS and DECS. Safe. -/
  | streamTooLong
  /-- A stream operation's input and output regions overlap (R37). Raised by ENCS and DECS. Safe. -/
  | bufferOverlap
  /-- The host breaks a duty of R111 or R112, or resets during an operation (R109). Raised by the host's turn in `step`, and by
  `stepTogether` where several instances clash (R36, R105). Safe. -/
  | hostDutyBroken
  /-- A read of an output port the last operation did not drive (R17). Raised by `readOut`, never by `step`. Safe. -/
  | undrivenRead
  deriving DecidableEq, Repr

/-- One instance and its host, and the count of free values drawn. -/
structure State where
  params : Params
  inp : InPorts
  place : Placement
  out : OutPorts
  seq : Sequencer
  host : List Turn
  /-- The MODEL's own field, not the spec's: how many free values have been drawn (log entry 21). -/
  draws : Nat
  deriving DecidableEq, Repr

/-- The machine right after reset (R24, R108): idle, no output port driven. R24 gives the input ports, the regions and the
sequencer's `i` and `N` no value: zero and empty here (DESIGN CHOICE, log entries 3, 4, 5), and a host that has planned
nothing (DESIGN CHOICE, log entry 7). No free value has been drawn (DESIGN CHOICE, log entry 21). -/
def State.reset : State :=
  { params := Params.hardware
    inp :=
      { op := 0, tdIn := 0, bsIn := 0, xIn := 0, yIn := 0, recIn := 0, fIn := 0, hIn := 0,
        sin := [], ibuf := { len := 0, cells := [] } }
    place := { sinAt := { base := 0, size := 0 }, ibufAt := 0, obufAt := 0, soutAt := { base := 0, size := 0 } }
    out := OutPorts.undriven
    seq := { busy := false, n := 0, i := 0 }
    host := []
    draws := 0 }

end Sys2Proof.Machine
end

