-- ==== Sys2Proof/Machine/Half.lean ====
section
/-! DEFINITION. The binary16 and binary32 formats and the two conversions, bit for bit (R47, R48, R78 to R88). No flag is
written by either (R20, R88). -/

namespace Sys2Proof.Machine

/-! ### Fields (R47, R48) -/

def f16Sign (h : F16) : BitVec 1 := h.extractLsb' 15 1
def f16Exp (h : F16) : Nat := (h.extractLsb' 10 5).toNat
def f16Frac (h : F16) : Nat := (h.extractLsb' 0 10).toNat
def f32Sign (a : F32) : BitVec 1 := a.extractLsb' 31 1
def f32Exp (a : F32) : Nat := (a.extractLsb' 23 8).toNat
def f32Frac (a : F32) : Nat := (a.extractLsb' 0 23).toNat

def f16IsNaN (h : F16) : Bool := decide (f16Exp h = 31) && decide (f16Frac h ≠ 0)
def f32IsNaN (a : F32) : Bool := decide (f32Exp a = 255) && decide (f32Frac a ≠ 0)

/-- A NaN whose fraction's top bit is 0 (R13, R78). -/
def f16IsSignalling (h : F16) : Bool := f16IsNaN h && !(f16Frac h).testBit 9

/-! ### Values (R78) -/

/-- What a pattern denotes. `mag` counts units of `2^-149`, the smallest binary32 magnitude, so that every finite
binary16 and binary32 magnitude is a whole number of units: `2^-24` is `2^125` units. -/
inductive FloatValue where
  | nan (quiet : Bool)
  | inf (neg : Bool)
  | finite (neg : Bool) (mag : Nat)
  deriving DecidableEq, Repr

def f16Value (h : F16) : FloatValue :=
  let neg := decide (f16Sign h = 1#1)
  let e := f16Exp h
  let t := f16Frac h
  if e = 31 then (if t = 0 then .inf neg else .nan (t.testBit 9))
  else if e = 0 then .finite neg (t * 2 ^ 125)
  else .finite neg ((1024 + t) * 2 ^ (e + 124))

def f32Value (a : F32) : FloatValue :=
  let neg := decide (f32Sign a = 1#1)
  let e := f32Exp a
  let m := f32Frac a
  if e = 255 then (if m = 0 then .inf neg else .nan (m.testBit 22))
  else if e = 0 then .finite neg m
  else .finite neg ((2 ^ 23 + m) * 2 ^ (e - 1))

/-! ### F32 to F16 (R80) -/

/-- R79's tie rule: 1 when the dropped part `r` is above half a step, or is exactly half and the kept part is odd. -/
def roundUp (r half t : Nat) : Nat := if half < r ∨ (r = half ∧ t % 2 = 1) then 1 else 0

/-- The 15 bits below the sign that R80 computes from the exponent field `e` and the fraction `m` of an F32. -/
def f16Magnitude (e m : Nat) : Nat :=
  if e = 255 then
    (if m = 0 then 0x7C00 else 0x7C00 ||| 0x0200 ||| (m >>> 13))
  else if e = 0 then 0
  else
    let E : Int := (e : Int) - 127
    if E > 15 then 0x7C00
    else if E ≥ -14 then
      let t := m >>> 13
      let r := m % 2 ^ 13
      (((E + 15).toNat <<< 10) ||| t) + roundUp r 0x1000 t
    else if E < -25 then 0
    else
      let sig := (1 <<< 23) ||| m
      let k := (-E - 1).toNat
      let t := sig >>> k
      let r := sig % 2 ^ k
      t + roundUp r (1 <<< (k - 1)) t

/-- `F32_TO_F16` (R80): the sign is kept (R84) above the 15 computed bits. -/
def f32ToF16 (a : F32) : F16 := f32Sign a ++ BitVec.ofNat 15 (f16Magnitude (f32Exp a) (f32Frac a))

/-! ### F16 to F32 (R86) -/

/-- The index of the highest 1 bit of `t` among bits `k .. 0`. -/
def highestBit (t : Nat) : Nat → Nat
  | 0 => 0
  | k + 1 => if t.testBit (k + 1) then k + 1 else highestBit t k

/-- The 31 bits below the sign that R86 computes from the exponent field `e` and the fraction `t` of an F16. -/
def f32Magnitude (e t : Nat) : Nat :=
  if e = 31 then
    (if t = 0 then 0x7F800000 else 0x7FC00000 ||| (t <<< 13))
  else if e = 0 then
    (if t = 0 then 0
     else
      let p := highestBit t 9
      ((p + 103) <<< 23) ||| ((t - (1 <<< p)) <<< (23 - p)))
  else ((e + 112) <<< 23) ||| (t <<< 13)

/-- `F16_TO_F32` (R86). -/
def f16ToF32 (h : F16) : F32 := f16Sign h ++ BitVec.ofNat 31 (f32Magnitude (f16Exp h) (f16Frac h))

/-- The quantisation `Q` of R76 and R91. -/
def quantise (a : F32) : F32 := f16ToF32 (f32ToF16 a)

/-- A binary16 pattern as it comes back from a round trip through binary32 (R77, R91 L1): a NaN with its quiet bit set, any
other pattern as it is. -/
def quieten (h : F16) : F16 := if f16IsNaN h then h ||| 0x0200#16 else h

end Sys2Proof.Machine
end

