-- ==== Sys2Proof/Machine/Ops.lean ====
section
/-! DEFINITION. The named operations over byte buffers, regions, port widths, the sequencer and the whole state. The spec
describes no exception and no return from one (R96, R101), so there is no operation that takes or leaves an exception. -/

namespace Sys2Proof.Machine

/-! ### Byte buffers (R10, R25, R27) -/

/-- What an offset below the length reads as when no cell lists it (log entry 6). -/
def Buffer.fill : Byte := 0

/-- The byte listed for offset `a`, or the fill. -/
def cellGet (a : Nat) : List Host.Cell → Byte
  | [] => Buffer.fill
  | (c, x) :: rest => if a = c then x else cellGet a rest

/-- Sets offset `a` to `b`, keeping the canonical form: a byte equal to the fill is not listed. -/
def cellSet (a : Nat) (b : Byte) : List Host.Cell → List Host.Cell
  | [] => if b = Buffer.fill then [] else [(a, b)]
  | (c, x) :: rest =>
    if a < c then (if b = Buffer.fill then (c, x) :: rest else (a, b) :: (c, x) :: rest)
    else if a = c then (if b = Buffer.fill then rest else (a, b) :: rest)
    else (c, x) :: cellSet a b rest

/-- Offsets strictly rise from `lo`, stay below `hi`, and no listed byte is the fill. -/
def canonFrom (lo hi : Nat) : List Host.Cell → Bool
  | [] => true
  | (c, x) :: rest => decide (lo ≤ c) && decide (c < hi) && decide (x ≠ Buffer.fill) && canonFrom (c + 1) hi rest

/-- The canonical form of a buffer: equal buffers are equal data. -/
def Buffer.wf (B : Buffer) : Bool := canonFrom 0 B.len B.cells

/-- The byte at an offset; R10 gives it a meaning for `off < len` only. -/
def Buffer.byte (B : Buffer) (off : Nat) : Byte := cellGet off B.cells

/-- The byte at an offset, or `none` where the buffer has no such offset (R10). -/
def Buffer.byte? (B : Buffer) (off : Nat) : Option Byte :=
  if off < B.len then some (B.byte off) else none

/-- A buffer of `n` bytes not written yet. -/
def Buffer.fresh (n : Nat) : Buffer := { len := n, cells := [] }

/-- The little-endian value of `n` bytes from `off`: the sum of `B[off+k] << 8k` (R10). -/
def leValue (B : Buffer) (off : Nat) : Nat → Nat
  | 0 => 0
  | n + 1 => (B.byte off).toNat + 256 * leValue B (off + 1) n

/-- `MemRead(B, off, n)` of R10, defined only when `off + n <= len(B)`. -/
def Buffer.memRead (B : Buffer) (off n : Nat) : Option Nat :=
  if off + n ≤ B.len then some (leValue B off n) else none

/-- Writes the `n` low bytes of `v`, little-endian, from `off`. -/
def cellsWrite (off : Nat) : Nat → Nat → List Host.Cell → List Host.Cell
  | 0, _, cells => cells
  | n + 1, v, cells => cellsWrite (off + 1) n (v / 256) (cellSet off (BitVec.ofNat 8 v) cells)

/-- `MemWrite(B, off, n, v)` of R10: `B[off+k] <- v[8k+7:8k]`. R10 gives no meaning outside the buffer: nothing is written
there, and no operation writes there (`encodeLoop` stays below `6*N`). -/
def Buffer.memWrite (B : Buffer) (off n v : Nat) : Buffer :=
  if off + n ≤ B.len then { B with cells := cellsWrite off n v B.cells } else B

/-- The canonical cells of a list of bytes that starts at offset `off`. -/
def cellsOf (off : Nat) : List Byte → List Host.Cell
  | [] => []
  | b :: rest => if b = Buffer.fill then cellsOf (off + 1) rest else (off, b) :: cellsOf (off + 1) rest

/-- The buffer that holds the given bytes in offset order. -/
def Buffer.ofBytes (bs : List Byte) : Buffer := { len := bs.length, cells := cellsOf 0 bs }

/-- The bytes of a buffer in offset order. -/
def Buffer.bytes (B : Buffer) : List Byte := (List.range B.len).map B.byte

/-- A buffer whose first byte is at address `base`, after `src` was written from address `srcAt` on: the bytes at shared addresses are
those of `src`, the others stay, and so does the length. -/
def Buffer.overlay (B : Buffer) (base srcAt : Nat) (src : Buffer) : Buffer :=
  Buffer.ofBytes ((List.range B.len).map (fun off =>
    if srcAt ≤ base + off ∧ base + off < srcAt + src.len then src.byte (base + off - srcAt) else B.byte off))

/-! ### Regions of host memory (R37) -/

/-- Two regions overlap when some address lies in both. -/
def Region.overlaps (a b : Region) : Bool :=
  decide (max a.base b.base < min (a.base + a.size) (b.base + b.size))

/-- The regions of host memory that an operation or an event reads, and those it writes. -/
structure MemUse where
  reads : List Region
  writes : List Region
  deriving DecidableEq, Repr

/-- Touches no host memory. -/
def MemUse.nothing : MemUse := { reads := [], writes := [] }

/-- Some region of one list overlaps some region of the other. -/
def overlapSome (as bs : List Region) : Bool := as.any (fun a => bs.any a.overlaps)

/-- Two users of host memory at the same time conflict when one writes what the other reads or writes; reading the same
memory is no conflict (R36, R105). -/
def MemUse.conflicts (u v : MemUse) : Bool := overlapSome u.writes (v.reads ++ v.writes) || overlapSome u.reads v.writes

/-! ### Port widths (R7, R8, R22) -/

/-- `zext_w(v)` of R8 as the number the wider port denotes. -/
def zextNat {k : Nat} (w : Nat) (v : BitVec k) : Nat := (v.setWidth w).toNat

/-- The number a host reads from a `w`-bit port when it takes the bits as two's complement (R22, R57). -/
def asSigned (w v : Nat) : Int := (BitVec.ofNat w v).toInt

/-- Both integer fields fit the port widths of the instance (R22). -/
def Sample.fits (p : Params) (s : Sample) : Bool := decide (s.td < 2 ^ p.tdW) && decide (s.bs < 2 ^ p.bsW)

/-- A sample as the ports carry it: the integer fields have `TD_W` and `BS_W` bits (R16). -/
def Sample.clip (p : Params) (s : Sample) : Sample := { s with td := s.td % 2 ^ p.tdW, bs := s.bs % 2 ^ p.bsW }

/-! ### The stream sequencer (R23) -/

def Sequencer.idle : Sequencer := { busy := false, n := 0, i := 0 }

/-- `busy` is 1 from start to completion, `N` is fixed at start, `i` starts at 0 (R23). -/
def Sequencer.start (n : Nat) : Sequencer := { busy := true, n := n, i := 0 }

/-- `i` rises by 1 per record (R23). -/
def Sequencer.advance (q : Sequencer) : Sequencer := { q with i := q.i + 1 }

def Sequencer.finish (q : Sequencer) : Sequencer := { q with busy := false }

/-! ### Completing an operation, and reset -/

/-- The operation completes: its ports are driven and every other output port has no value (R17, R18). -/
def State.complete (s : State) (o : OutPorts) : State := { s with out := o }

/-- The sequencer's values after a stream operation (R23). -/
def State.withSeq (s : State) (q : Sequencer) : State := { s with seq := q }

/-- The host's remaining turns. -/
def State.withHost (s : State) (h : List Turn) : State := { s with host := h }

/-- The host drives the input ports. -/
def State.withInp (s : State) (f : InPorts) : State := { s with inp := f }

/-- The host moves an operand in its memory. -/
def State.withPlace (s : State) (p : Placement) : State := { s with place := p }

/-- One more free value has been drawn (log entry 21). -/
def State.nextDraw (s : State) : State := { s with draws := s.draws + 1 }

/-- The reset signal between operations (R24, R108): idle, no output driven; parameters and the host's inputs stay. -/
def State.assertReset (s : State) : State := { s with out := OutPorts.undriven, seq := Sequencer.idle }

/-- `N > MAX_N` where `MAX_N` is bounded (R66, R75). -/
def exceedsMax (p : Params) (n : Nat) : Bool :=
  match p.maxN with
  | none => false
  | some k => decide (k < n)

/-- Why a stream operation of `n` records is refused, in the order of R99: overlap first, then length. -/
def streamRefusal (s : State) (input output : Region) (n : Nat) : Option Refusal :=
  if input.overlaps output then some .bufferOverlap
  else if exceedsMax s.params n then some .streamTooLong
  else none

end Sys2Proof.Machine
end

