-- ==== Sys2Proof/Machine/Records.lean ====
section
/-! DEFINITION. The record: its layout (R27, R28, R45, R46), the record functions ENC_REC (R60) and DEC_REC (R70), and the
two stream loops over them (R63, R73), run by the sequencer in ascending index (R23). -/

namespace Sys2Proof.Machine

/-! ### Fields of a record port (R28, R46) -/

/-- Word 0, the combined word. -/
def Rec.w0 (r : Rec) : BitVec 16 := r.extractLsb' 0 16
/-- The x-bits. -/
def Rec.hx (r : Rec) : F16 := r.extractLsb' 16 16
/-- The y-bits. -/
def Rec.hy (r : Rec) : F16 := r.extractLsb' 32 16
/-- `TD = w0[10:0]`. -/
def Rec.td (r : Rec) : BitVec 11 := (Rec.w0 r).extractLsb' 0 11
/-- `BTN = w0[15:11]`. -/
def Rec.btn (r : Rec) : BitVec 5 := (Rec.w0 r).extractLsb' 11 5
/-- Byte `k` of a record is bits `8k+7 .. 8k` (R28). -/
def Rec.byte (r : Rec) (k : Nat) : Byte := r.extractLsb' (8 * k) 8

/-- The record port value of six bytes in offset order (R28, R54). -/
def Rec.ofBytes (b0 b1 b2 b3 b4 b5 : Byte) : Rec := b5 ++ b4 ++ b3 ++ b2 ++ b1 ++ b0

/-- A record put together from its four fields: `{hy, hx, {BTN, TD}}` (R28, R58). -/
def Rec.pack (td : BitVec 11) (btn : BitVec 5) (hx hy : F16) : Rec := hy ++ hx ++ (btn ++ td : BitVec 16)

/-! ### The record functions -/

/-- `ENC_REC` (R60): the low 11 bits of `td` (R56), the low 5 bits of `bs` (R57), and the two coordinates rounded to
binary16, each by itself (R59, R92). -/
def encRec (s : Sample) : Rec :=
  Rec.pack (BitVec.ofNat 11 s.td) (BitVec.ofNat 5 s.bs) (f32ToF16 s.x) (f32ToF16 s.y)

/-- `DEC_REC` (R70): both integer fields zero-extended (R67, R68), both coordinates widened (R69). -/
def decRec (p : Params) (r : Rec) : Sample :=
  { td := zextNat p.tdW (Rec.td r)
    bs := zextNat p.bsW (Rec.btn r)
    x := f16ToF32 (Rec.hx r)
    y := f16ToF32 (Rec.hy r) }

/-! ### What each operation puts on the output ports (R16, R17) -/

/-- ENC drives `rec_out` alone. -/
def OutPorts.ofRecord (r : Rec) : OutPorts := { OutPorts.undriven with recOut := some r }

/-- DEC drives `td_out`, `bs_out`, `x_out` and `y_out`. -/
def OutPorts.ofSample (d : Sample) : OutPorts :=
  { OutPorts.undriven with tdOut := some d.td, bsOut := some d.bs, xOut := some d.x, yOut := some d.y }

/-- CVT.H.S drives `h_out` alone. -/
def OutPorts.ofHalf (h : F16) : OutPorts := { OutPorts.undriven with hOut := some h }

/-- CVT.S.H drives `f_out` alone. -/
def OutPorts.ofFull (f : F32) : OutPorts := { OutPorts.undriven with fOut := some f }

/-- ENCS drives `obuf` alone. -/
def OutPorts.ofBuffer (B : Buffer) : OutPorts := { OutPorts.undriven with obuf := some B }

/-- DECS drives `sout` alone. -/
def OutPorts.ofSamples (l : List Sample) : OutPorts := { OutPorts.undriven with sout := some l }

/-! ### The stream loops -/

/-- The record at index `i` of a buffer, `MemRead(B, 6*i, 6)` (R26, R28). The default is never taken for a whole record. -/
def Buffer.recordAt (B : Buffer) (i : Nat) : Rec :=
  BitVec.ofNat 48 ((B.memRead (6 * i) 6).getD 0)

/-- How many whole records a buffer holds, `floor(L / 6)` (R50, R73); the trailing bytes are not counted (R31). -/
def Buffer.recordCount (B : Buffer) : Nat := B.len / 6

/-- The loop of ENCS (R63): `MemWrite(B, 6*i, 6, ENC_REC(sin[i]))` for ascending `i`. -/
def encodeLoop : List Sample → Sequencer → Buffer → Sequencer × Buffer
  | [], q, B => (q.finish, B)
  | s :: rest, q, B => encodeLoop rest q.advance (B.memWrite (6 * q.i) 6 (encRec s).toNat)

/-- The loop of DECS (R73): `S[i] = DEC_REC(MemRead(ibuf, 6*i, 6))` for ascending `i`, for as many records as are left. -/
def decodeLoop (p : Params) (B : Buffer) : Nat → Sequencer → List Sample → Sequencer × List Sample
  | 0, q, S => (q.finish, S)
  | left + 1, q, S => decodeLoop p B left q.advance (S ++ [decRec p (B.recordAt q.i)])

/-- The buffer ENCS builds from a sample sequence (R63): `6*N` bytes, every record written in order. -/
def encodeStream (l : List Sample) : Sequencer × Buffer :=
  encodeLoop l (Sequencer.start l.length) (Buffer.fresh (6 * l.length))

/-- The sample sequence DECS builds from a buffer (R73). -/
def decodeStream (p : Params) (B : Buffer) : Sequencer × List Sample :=
  decodeLoop p B B.recordCount (Sequencer.start B.recordCount) []

end Sys2Proof.Machine
end

