-- ==== Sys2Proof/Machine/Operands.lean ====
section
/-! DEFINITION. The operand ports: which operation reads and drives which (R16), how the host drives an input (R14), and how
an output is read (R17). The operations have no operand fields and no addressing modes (R42, R94). -/

namespace Sys2Proof.Machine

/-! ### Which operation reads and drives which port (R16) -/

/-- R16's column "read by"; the regions are those the rules of the operation name (R33, R37). -/
def opReads (i : Instr) (p : InPort) : Bool :=
  match p with
  | .op => true
  | .tdIn => decide (i = .enc)
  | .bsIn => decide (i = .enc)
  | .xIn => decide (i = .enc)
  | .yIn => decide (i = .enc)
  | .recIn => decide (i = .dec)
  | .fIn => decide (i = .cvtHS)
  | .hIn => decide (i = .cvtSH)
  | .sin => decide (i = .encs)
  | .ibuf => decide (i = .decs)
  | .sinRegion => decide (i = .encs)
  | .ibufRegion => decide (i = .decs)
  | .obufRegion => decide (i = .encs)
  | .soutRegion => decide (i = .decs)

/-- R16's column "driven by". -/
def opDrives (i : Instr) (p : OutPort) : Bool :=
  match p with
  | .recOut => decide (i = .enc)
  | .tdOut => decide (i = .dec)
  | .bsOut => decide (i = .dec)
  | .xOut => decide (i = .dec)
  | .yOut => decide (i = .dec)
  | .hOut => decide (i = .cvtHS)
  | .fOut => decide (i = .cvtSH)
  | .obuf => decide (i = .encs)
  | .sout => decide (i = .decs)

/-! ### Driving an input -/

/-- The input a drive puts a value on. -/
def Drive.port : Drive → InPort
  | .op _ => .op
  | .tdIn _ => .tdIn
  | .bsIn _ => .bsIn
  | .xIn _ => .xIn
  | .yIn _ => .yIn
  | .recIn _ => .recIn
  | .fIn _ => .fIn
  | .hIn _ => .hIn
  | .sin _ => .sin
  | .ibuf _ => .ibuf
  | .sinRegion _ => .sinRegion
  | .ibufRegion _ => .ibufRegion
  | .obufRegion _ => .obufRegion
  | .soutRegion _ => .soutRegion

/-- The input ports after a drive. A port has its width: `td_in` takes `TD_W` bits, `bs_in` takes `BS_W` bits (R16). -/
def Drive.onPorts (p : Params) (f : InPorts) : Drive → InPorts
  | .op v => { f with op := v }
  | .tdIn v => { f with tdIn := v % 2 ^ p.tdW }
  | .bsIn v => { f with bsIn := v % 2 ^ p.bsW }
  | .xIn v => { f with xIn := v }
  | .yIn v => { f with yIn := v }
  | .recIn v => { f with recIn := v }
  | .fIn v => { f with fIn := v }
  | .hIn v => { f with hIn := v }
  | .sin v => { f with sin := v.map (Sample.clip p) }
  | .ibuf v => { f with ibuf := Buffer.ofBytes v }
  | .sinRegion _ => f
  | .ibufRegion _ => f
  | .obufRegion _ => f
  | .soutRegion _ => f

/-- The placement after a drive. -/
def Drive.onPlace (p : Placement) : Drive → Placement
  | .sinRegion r => { p with sinAt := r }
  | .ibufRegion a => { p with ibufAt := a }
  | .obufRegion a => { p with obufAt := a }
  | .soutRegion r => { p with soutAt := r }
  | .op _ => p
  | .tdIn _ => p
  | .bsIn _ => p
  | .xIn _ => p
  | .yIn _ => p
  | .recIn _ => p
  | .fIn _ => p
  | .hIn _ => p
  | .sin _ => p
  | .ibuf _ => p

/-- The host drives one input (R14). No output port changes, even where the drive writes over the memory of `obuf` or `sout` or
moves its region: the spec does not say what a later read of that output gives (DESIGN CHOICE, log entry 20). Nor does another input
change whose memory the drive writes over (DESIGN CHOICE, log entry 18). -/
def State.drive (s : State) (d : Drive) : State :=
  (s.withInp (d.onPorts s.params s.inp)).withPlace (d.onPlace s.place)

/-- The sample on the input ports of ENC (R61). -/
def State.sampleIn (s : State) : Sample :=
  { td := s.inp.tdIn, bs := s.inp.bsIn, x := s.inp.xIn, y := s.inp.yIn }

/-! ### Regions of a stream operation (R33, R37) -/

/-- The region ENCS writes: exactly `6*N` bytes (R33). -/
def State.obufRegion (s : State) : Region := { base := s.place.obufAt, size := 6 * s.inp.sin.length }

/-- The region DECS reads: the whole input buffer. -/
def State.ibufRegion (s : State) : Region := { base := s.place.ibufAt, size := s.inp.ibuf.len }

/-! ### What a stream operation's results do to the inputs that lie under them (R36) -/

/-- The bytes of a result `B` come to stand in host memory from `base` on, and a later operation sees them (R36, R38): where `ibuf` lies
there, its bytes are those of `B`. -/
def State.storeBytes (s : State) (base : Nat) (B : Buffer) : State :=
  if s.ibufRegion.overlaps { base := base, size := B.len } then
    s.withInp { s.inp with ibuf := s.inp.ibuf.overlay s.place.ibufAt base B }
  else s

/-- The four fields of a sample, as the free value takes and gives them. -/
def Sample.fields (a : Sample) : Config.SampleFields := (a.td, a.bs, a.x, a.y)

/-- Element `k` of a `sin` over which samples `S` were written in region `r`: a free value of the port's widths. Two states that agree
in `draws`, in `sin`, in `S` and in both regions have the same one, be they of two instances or two runs (DESIGN CHOICE, log
entry 21). -/
def State.freeSample (s : State) (r : Region) (S : List Sample) (k : Nat) : Sample :=
  let f := Config.freeSample s.draws k (s.inp.sin.map Sample.fields) (S.map Sample.fields)
    s.place.sinAt.base s.place.sinAt.size r.base r.size
  Sample.clip s.params { td := f.1, bs := f.2.1, x := f.2.2.1, y := f.2.2.2 }

/-- A result of samples comes to stand in region `r` of host memory, and a later operation sees it (R36, R38). Where `sin` lies there its
elements change; which samples they then are is in no source (N11), so each is a free value, and their number stays (log entry 21). -/
def State.storeSamples (s : State) (r : Region) (S : List Sample) : State :=
  if !S.isEmpty && s.place.sinAt.overlaps r then
    (s.withInp { s.inp with sin := (List.range s.inp.sin.length).map (s.freeSample r S) }).nextDraw
  else s

/-! ### Host memory that operations and drives touch (R25, R36, R94) -/

/-- What an operation reads and writes in host memory: only ENCS and DECS touch any (R25, R94). -/
def opMemory (i : Instr) (s : State) : MemUse :=
  match i with
  | .enc => MemUse.nothing
  | .dec => MemUse.nothing
  | .cvtHS => MemUse.nothing
  | .cvtSH => MemUse.nothing
  | .encs => { reads := [s.place.sinAt], writes := [s.obufRegion] }
  | .decs => { reads := [s.ibufRegion], writes := [s.place.soutAt] }

/-- What a drive does in host memory: a new `ibuf` is written, its bytes from the base on, and a new `sin`, in the region the host
states for it. An input moved to another place keeps its value, so it counts as read where it was and written where it comes to
lie (log entry 18). -/
def Drive.memory (s : State) : Drive → MemUse
  | .sin _ => { reads := [], writes := [s.place.sinAt] }
  | .ibuf v => { reads := [], writes := [{ base := s.place.ibufAt, size := v.length }] }
  | .sinRegion r => if r = s.place.sinAt then MemUse.nothing else { reads := [s.place.sinAt], writes := [r] }
  | .ibufRegion a =>
    if a = s.place.ibufAt then MemUse.nothing
    else { reads := [s.ibufRegion], writes := [{ base := a, size := s.inp.ibuf.len }] }
  | .op _ => MemUse.nothing
  | .tdIn _ => MemUse.nothing
  | .bsIn _ => MemUse.nothing
  | .xIn _ => MemUse.nothing
  | .yIn _ => MemUse.nothing
  | .recIn _ => MemUse.nothing
  | .fIn _ => MemUse.nothing
  | .hIn _ => MemUse.nothing
  | .obufRegion _ => MemUse.nothing
  | .soutRegion _ => MemUse.nothing

/-- The host memory of an output port: `obuf` and `sout` have regions, as large as the current inputs make them (R33). -/
def OutPort.memory (s : State) : OutPort → List Region
  | .obuf => [s.obufRegion]
  | .sout => [s.place.soutAt]
  | .recOut => []
  | .tdOut => []
  | .bsOut => []
  | .xOut => []
  | .yOut => []
  | .hOut => []
  | .fOut => []

/-! ### Reading an output (R17) -/

/-- A value of a port's type (R16, R53). `td` and `bs` values are unsigned numbers. -/
inductive Value where
  | int (n : Nat)
  | f32 (v : F32)
  | f16 (v : F16)
  | record (v : Rec)
  | samples (v : List Sample)
  | bytes (v : List Byte)
  deriving DecidableEq, Repr

/-- The value of an output port, or `none` where the last operation did not drive it. -/
def OutPorts.value (o : OutPorts) : OutPort → Option Value
  | .recOut => o.recOut.map .record
  | .tdOut => o.tdOut.map .int
  | .bsOut => o.bsOut.map .int
  | .xOut => o.xOut.map .f32
  | .yOut => o.yOut.map .f32
  | .hOut => o.hOut.map .f16
  | .fOut => o.fOut.map .f32
  | .obuf => o.obuf.map (fun B => .bytes B.bytes)
  | .sout => o.sout.map .samples

/-- A read of an output port: refused where the last operation did not drive it (R17, R98). -/
def readOut (s : State) (p : OutPort) : Except Refusal Value :=
  match s.out.value p with
  | some v => .ok v
  | none => .error .undrivenRead

end Sys2Proof.Machine
end

