-- ==== Sys2Proof/Machine/ConvertFamily.lean ====
section
/-! DEFINITION. The converters: CVT.H.S (R89) and CVT.S.H (R90). -/

namespace Sys2Proof.Machine

/-- CVT.H.S (R89): `h_out <- F32_TO_F16(f_in)`; without converters the code is refused (R97). -/
def execCvtHS (s : State) : Host.Outcome State Fault Refusal :=
  if s.params.hasCvt then
    .next (s.complete (OutPorts.ofHalf (f32ToF16 s.inp.fIn)))
  else .refused .cvtAbsent

/-- CVT.S.H (R90): `f_out <- F16_TO_F32(h_in)`; without converters the code is refused (R97). -/
def execCvtSH (s : State) : Host.Outcome State Fault Refusal :=
  if s.params.hasCvt then
    .next (s.complete (OutPorts.ofFull (f16ToF32 s.inp.hIn)))
  else .refused .cvtAbsent

end Sys2Proof.Machine
end

