-- ==== Sys2Proof/Machine/DecodeFamily.lean ====
section
/-! DEFINITION. The decode family: DEC (R71) and DECS (R73). -/

namespace Sys2Proof.Machine

/-- DEC (R71): `{td_out, bs_out, x_out, y_out} <- DEC_REC(rec_in)`. It never fails (R72). -/
def execDec (s : State) : Host.Outcome State Fault Refusal :=
  .next (s.complete (OutPorts.ofSample (decRec s.params s.inp.recIn)))

/-- DECS (R73): `sout` holds the samples of the whole records of `ibuf`; trailing bytes are ignored (R31). Refused only as
R37 and R75 say. Where `sout` lies over the memory of `sin`, a later operation sees what was written (R36). -/
def execDecs (s : State) : Host.Outcome State Fault Refusal :=
  match streamRefusal s s.ibufRegion s.place.soutAt s.inp.ibuf.recordCount with
  | some r => .refused r
  | none =>
    .next (((s.storeSamples s.place.soutAt (decodeStream s.params s.inp.ibuf).2).withSeq
        (decodeStream s.params s.inp.ibuf).1).complete
      (OutPorts.ofSamples (decodeStream s.params s.inp.ibuf).2))

end Sys2Proof.Machine
end

