-- ==== Sys2Proof/Machine/EncodeFamily.lean ====
section
/-! DEFINITION. The encode family: ENC (R61) and ENCS (R63). -/

namespace Sys2Proof.Machine

/-- ENC (R61): `rec_out <- ENC_REC({td_in, bs_in, x_in, y_in})`. It always succeeds (R62). -/
def execEnc (s : State) : Host.Outcome State Fault Refusal :=
  .next (s.complete (OutPorts.ofRecord (encRec s.sampleIn)))

/-- ENCS (R63): `obuf` holds the records of `sin` in order. Refused only as R37 and R66 say. Where
`obuf` lies over the memory of `ibuf`, a later operation sees the bytes written (R36). -/
def execEncs (s : State) : Host.Outcome State Fault Refusal :=
  match streamRefusal s s.place.sinAt s.obufRegion s.inp.sin.length with
  | some r => .refused r
  | none =>
    .next (((s.storeBytes s.place.obufAt (encodeStream s.inp.sin).2).withSeq (encodeStream s.inp.sin).1).complete
      (OutPorts.ofBuffer (encodeStream s.inp.sin).2))

end Sys2Proof.Machine
end

