-- ==== Sys2Proof/Machine/Dispatch.lean ====
section
/-! DEFINITION. One arm per operation (R43). -/

namespace Sys2Proof.Machine

def exec (i : Instr) (s : State) : Host.Outcome State Fault Refusal :=
  match i with
  | .enc => Sys2Proof.Machine.execEnc s
  | .dec => Sys2Proof.Machine.execDec s
  | .cvtHS => Sys2Proof.Machine.execCvtHS s
  | .cvtSH => Sys2Proof.Machine.execCvtSH s
  | .encs => Sys2Proof.Machine.execEncs s
  | .decs => Sys2Proof.Machine.execDecs s

end Sys2Proof.Machine
end

