-- ==== Sys2Proof/Machine/HostAgent.lean ====
section
/-! DEFINITION. The host agent's part in one step (R14): what it does while the operation runs, judged by the host duties
(R111, R112) and the reset rule (R109), and what it does between operations (R108). -/

namespace Sys2Proof.Machine

/-- What an event reads and writes in host memory, by address and not by port name (R36). -/
def HostEvent.memory (s : State) : HostEvent → MemUse
  | .drive d => d.memory s
  | .readOutput p => { reads := p.memory s, writes := [] }
  | .readMemory r => { reads := [r], writes := [] }
  | .writeMemory r => { reads := [], writes := [r] }
  | .startNext => MemUse.nothing
  | .assertReset => MemUse.nothing

/-- An event breaks a duty by what it does to the ports: an input the operation reads must keep its value (R111), an output it
is to drive may not be read before completion (R112), and the next operation may not start, nor reset be asserted, before
completion (R112, R109). -/
def breaksPortDuty (i : Instr) (s : State) : HostEvent → Bool
  | .drive d => opReads i d.port && decide (s.drive d ≠ s)
  | .readOutput p => opDrives i p
  | .readMemory _ => false
  | .writeMemory _ => false
  | .startNext => true
  | .assertReset => true

/-- An event breaks a duty by what it does to the ports, or by the host memory it touches: the input of the operation in
progress may not be written, and its output neither read nor written (R36, R111). -/
def breaksDuty (i : Instr) (s : State) (e : HostEvent) : Bool :=
  breaksPortDuty i s e || (e.memory s).conflicts (opMemory i s)

/-- What an event that breaks no duty leaves: an input the operation does not read takes its new value. A write to host memory
changes no input port by itself (log entry 18). -/
def eventEffect (s : State) : HostEvent → State
  | .drive d => s.drive d
  | .readOutput _ => s
  | .readMemory _ => s
  | .writeMemory _ => s
  | .startNext => s
  | .assertReset => s

/-- The events during an operation, in order; `none` where one breaks a duty. -/
def duringOp (i : Instr) : List HostEvent → State → Option State
  | [], s => some s
  | e :: rest, s => if breaksDuty i s e then none else duringOp i rest (eventEffect s e)

/-- One action of the host between operations. -/
def actionEffect (s : State) : HostAction → State
  | .drive d => s.drive d
  | .reset => s.assertReset

/-- The host's actions between operations, in order. -/
def afterOp (as : List HostAction) (s : State) : State := as.foldl actionEffect s

/-- The host's turn around operation `i`, from the state the operation completes in. A host with no turn left changes nothing:
the ports stay as driven, and the next step starts the same operation again (log entry 7). -/
def hostTurn (i : Instr) (s : State) : Host.Outcome State Fault Refusal :=
  match s.host with
  | [] => .next s
  | t :: rest =>
    match duringOp i t.during (s.withHost rest) with
    | none => .refused .hostDutyBroken
    | some u => .next (afterOp t.after u)

/-- An operation was started on an instance that already runs one, a broken duty (R14, R112), or the host's turn. -/
def settleHost (busyAtStart : Bool) (i : Instr) (s : State) : Host.Outcome State Fault Refusal :=
  if busyAtStart then .refused .hostDutyBroken else hostTurn i s

end Sys2Proof.Machine
end

