-- ==== Sys2Proof/Machine/Step.lean ====
section
/-! DEFINITION. One step is one operation (R18): the host starts the operation whose code is on `op` (R14, R19), the operation
runs as one indivisible transaction, and the host takes its turn. Refusals are met in the order of R99. -/

namespace Sys2Proof.Machine

def step (s : State) : Host.Outcome State Fault Refusal :=
  match decode s.inp.op with
  | .error _ => .refused .reservedOp
  | .ok i =>
    match exec i s with
    | .next t => settleHost s.seq.busy i t
    | .fault f => .fault f
    | .refused r => .refused r

/-- `s` with the table word's operation select on the port `op`, which is where `step` takes its operation from (R19). -/
def State.withFetchWord (s : State) (_nbits w : Nat) : State :=
  { s with inp := { s.inp with op := opOfTableWord w } }

end Sys2Proof.Machine
end

