-- ==== Sys2Proof/Machine/Program.lean ====
section
/-! DEFINITION. Host programs (R53), their literals (R54) and pseudo-instructions (R55). Host variables are the host's, not
state of the block (R15, R53), so a program runs over `step` with an environment of its own. -/

namespace Sys2Proof.Machine

/-! ### Host variables -/

inductive SampleField where
  | td | bs | x | y
  deriving DecidableEq, Repr

/-- A host variable, named by a number; `s1.td` of R55 is the variable `s1` with the field `td`. -/
structure Var where
  name : Nat
  field : Option SampleField
  deriving DecidableEq, Repr

abbrev Env := List (Var × Value)

def Env.get (env : Env) (v : Var) : Option Value :=
  match env with
  | [] => none
  | (w, x) :: rest => if v = w then some x else Env.get rest v

def Env.set (env : Env) (v : Var) (x : Value) : Env := (v, x) :: env

/-- The four fields of a sample variable. -/
def Env.setSample (env : Env) (name : Nat) (s : Sample) : Env :=
  (((env.set ⟨name, some .td⟩ (.int s.td)).set ⟨name, some .bs⟩ (.int s.bs)).set ⟨name, some .x⟩ (.f32 s.x)).set
    ⟨name, some .y⟩ (.f32 s.y)

/-! ### Literals (R54) -/

/-- The quotient `a / b` rounded to nearest, ties to even. -/
def roundDiv (a b : Nat) : Nat := a / b + roundUp (2 * (a % b)) b (a / b)

/-- The smallest exponent field from `e` on whose 24-bit significand holds `num / den`. -/
def f32ExpFor (num den : Nat) : Nat → Nat → Nat
  | 0, e => e
  | k + 1, e => if num * 2 ^ 150 < 2 ^ 24 * den * 2 ^ e then e else f32ExpFor num den k (e + 1)

/-- `f32(d)` of R54 for the decimal `d = num / 10^scale`: the nearest binary32 pattern, ties to even. R54 does not say which
pattern is nearest to a decimal beyond the finite range: one that rounds past the largest finite value gives the infinity of its
sign. Nor does it say which zero a decimal gets that rounds to zero, since +0 and -0 are equally near: the zero of the decimal's
sign (both DESIGN CHOICE, log entry 19). -/
def f32Decimal (neg : Bool) (num scale : Nat) : F32 :=
  let den := 10 ^ scale
  let e := f32ExpFor num den 253 1
  let pattern := (e - 1) * 2 ^ 23 + roundDiv (num * 2 ^ 150) (den * 2 ^ e)
  BitVec.ofBool neg ++ BitVec.ofNat 31 (min pattern 0x7F800000)

inductive Literal where
  /-- Decimal or hexadecimal integer. -/
  | int (n : Nat)
  /-- `0x` and 12 hex digits. -/
  | record (v : Rec)
  /-- Six bytes in offset order. -/
  | recordBytes (b0 b1 b2 b3 b4 b5 : Byte)
  /-- A binary32 pattern. -/
  | f32 (v : F32)
  /-- `f32(d)` with `d = num / 10^scale`, negated if `neg`. -/
  | f32Dec (neg : Bool) (num scale : Nat)
  /-- A binary16 pattern. -/
  | f16 (v : F16)
  /-- A byte buffer in offset order. -/
  | bytes (v : List Byte)
  /-- A sequence of samples. -/
  | samples (v : List Sample)
  deriving DecidableEq, Repr

def Literal.value : Literal → Value
  | .int n => .int n
  | .record v => .record v
  | .recordBytes b0 b1 b2 b3 b4 b5 => .record (Rec.ofBytes b0 b1 b2 b3 b4 b5)
  | .f32 v => .f32 v
  | .f32Dec neg num scale => .f32 (f32Decimal neg num scale)
  | .f16 v => .f16 v
  | .bytes v => .bytes v
  | .samples v => .samples v

/-! ### Lines (R53) -/

/-- A line: the destination first, then the sources (R53). -/
inductive Line where
  | enc (r td bs x y : Var)
  | dec (td bs x y r : Var)
  | cvtHS (h f : Var)
  | cvtSH (f h : Var)
  | encs (b s : Var)
  | decs (s b : Var)
  deriving DecidableEq, Repr

def Line.instr : Line → Instr
  | .enc _ _ _ _ _ => .enc
  | .dec _ _ _ _ _ => .dec
  | .cvtHS _ _ => .cvtHS
  | .cvtSH _ _ => .cvtSH
  | .encs _ _ => .encs
  | .decs _ _ => .decs

/-- R53's column "reads": each source variable and the input port it goes to. -/
def Line.sources : Line → List (InPort × Var)
  | .enc _ td bs x y => [(.tdIn, td), (.bsIn, bs), (.xIn, x), (.yIn, y)]
  | .dec _ _ _ _ r => [(.recIn, r)]
  | .cvtHS _ f => [(.fIn, f)]
  | .cvtSH _ h => [(.hIn, h)]
  | .encs _ s => [(.sin, s)]
  | .decs _ b => [(.ibuf, b)]

/-- R53's column "writes": each output port and the variable it goes to. -/
def Line.results : Line → List (OutPort × Var)
  | .enc r _ _ _ _ => [(.recOut, r)]
  | .dec td bs x y _ => [(.tdOut, td), (.bsOut, bs), (.xOut, x), (.yOut, y)]
  | .cvtHS h _ => [(.hOut, h)]
  | .cvtSH f _ => [(.fOut, f)]
  | .encs b _ => [(.obuf, b)]
  | .decs s _ => [(.sout, s)]

/-- The drive that puts a value on a port, where the value has the port's type (R53). -/
def driveOf : InPort → Value → Option Drive
  | .tdIn, .int n => some (.tdIn n)
  | .bsIn, .int n => some (.bsIn n)
  | .xIn, .f32 v => some (.xIn v)
  | .yIn, .f32 v => some (.yIn v)
  | .recIn, .record v => some (.recIn v)
  | .fIn, .f32 v => some (.fIn v)
  | .hIn, .f16 v => some (.hIn v)
  | .sin, .samples v => some (.sin v)
  | .ibuf, .bytes v => some (.ibuf v)
  | _, _ => none

/-- Drives each source in turn; `none` where a variable has no value of the port's type. -/
def driveSources (env : Env) : List (InPort × Var) → State → Option State
  | [], s => some s
  | (p, v) :: rest, s =>
    match (env.get v).bind (driveOf p) with
    | none => none
    | some d => driveSources env rest (s.drive d)

/-- Reads each result into its variable (R17), in the order R53 lists the destinations. R53 does not say what a variable named as two
destinations of one DEC line keeps: the last result read into it (DESIGN CHOICE, log entry 13). -/
def readResults (s : State) : List (OutPort × Var) → Env → Except Refusal Env
  | [], env => .ok env
  | (p, v) :: rest, env =>
    match readOut s p with
    | .error r => .error r
    | .ok x => readResults s rest (env.set v x)

/-- How a program ends. -/
inductive ProgramEnd where
  | done (env : Env) (s : State)
  /-- The model refuses an operation or a read: the run proves no claim (R97). -/
  | refused (r : Refusal)
  /-- No operation faults (R96). -/
  | fault (f : Fault)
  /-- A line names a host variable that holds no value of the port's type: not a program of R53. -/
  | notAProgram
  deriving DecidableEq, Repr

/-- One line: drive `op` and the operand ports, run the operation, read the results. -/
def runLine (l : Line) (env : Env) (s : State) : ProgramEnd :=
  match driveSources env l.sources (s.drive (.op (encode l.instr))) with
  | none => .notAProgram
  | some s' =>
    match step s' with
    | .fault f => .fault f
    | .refused r => .refused r
    | .next t =>
      match readResults t l.results env with
      | .error r => .refused r
      | .ok env' => .done env' t

/-- A program is run top to bottom (R53). -/
def runProgram : List Line → Env → State → ProgramEnd
  | [], env, s => .done env s
  | l :: rest, env, s =>
    match runLine l env s with
    | .done env' t => runProgram rest env' t
    | .refused r => .refused r
    | .fault f => .fault f
    | .notAProgram => .notAProgram

/-! ### Pseudo-instructions (R55) -/

inductive SourceLine where
  | op (l : Line)
  /-- `QUANT f2, f1`. -/
  | quant (f2 f1 : Var)
  /-- `ROUNDTRIP s2, s1`, with the names of two sample variables. -/
  | roundtrip (s2 s1 : Nat)
  deriving DecidableEq, Repr

/-- R55's expansion, with `t` (or `r`) the fresh variable. -/
def SourceLine.expand (t : Var) : SourceLine → List Line
  | .op l => [l]
  | .quant f2 f1 => [.cvtHS t f1, .cvtSH f2 t]
  | .roundtrip s2 s1 =>
    [.enc t ⟨s1, some .td⟩ ⟨s1, some .bs⟩ ⟨s1, some .x⟩ ⟨s1, some .y⟩,
     .dec ⟨s2, some .td⟩ ⟨s2, some .bs⟩ ⟨s2, some .x⟩ ⟨s2, some .y⟩ t]

def Line.vars (l : Line) : List Var := l.sources.map Prod.snd ++ l.results.map Prod.snd

def SourceLine.names : SourceLine → List Nat
  | .op l => l.vars.map Var.name
  | .quant f2 f1 => [f2.name, f1.name]
  | .roundtrip s2 s1 => [s2, s1]

/-- A name above every name of the program and above every host variable that holds a value (R55: "a fresh host variable"). -/
def freshName (env : Env) (ls : List SourceLine) : Nat :=
  (env.map (fun e => e.1.name) ++ ls.flatMap SourceLine.names).foldl max 0 + 1

/-- Expands a program, each pseudo-instruction with a variable of its own. -/
def expandFrom (t : Nat) : List SourceLine → List Line
  | [] => []
  | l :: rest => l.expand ⟨t, none⟩ ++ expandFrom (t + 1) rest

def expandProgram (env : Env) (ls : List SourceLine) : List Line := expandFrom (freshName env ls) ls

/-- A program with pseudo-instructions, run over its expansion (R53, R55). -/
def runSource (ls : List SourceLine) (env : Env) (s : State) : ProgramEnd := runProgram (expandProgram env ls) env s

end Sys2Proof.Machine
end

