-- ==== Sys2Proof/Machine/System.lean ====
section
/-! DEFINITION. Several instances of the block in one system (R105): they share no state, so each runs its own `step`; what they
can share is host memory, where outputs must not clash (R36, R105). -/

namespace Sys2Proof.Machine

/-- The host memory the operation on `op` uses (R94); a reserved code selects none. -/
def State.nextMemory (s : State) : MemUse :=
  match decode s.inp.op with
  | .ok i => opMemory i s
  | .error _ => MemUse.nothing

/-- What the host does at this instance while its next operation runs. -/
def State.nextEvents (s : State) : List HostEvent :=
  match s.host with
  | [] => []
  | t :: _ => t.during

/-- Some event of the list, each met after the ones before it took effect, conflicts with a use `m` of host memory. -/
def eventsConflict (m : MemUse) : List HostEvent → State → Bool
  | [], _ => false
  | e :: rest, s => (e.memory s).conflicts m || eventsConflict m rest (eventEffect s e)

/-- Two instances whose operations run at the same time clash when one operation writes host memory the other reads or writes
(R36, R105), or when what the host does at one touches the memory of the other's operation as R36 forbids. -/
def clash (a b : State) : Bool :=
  a.nextMemory.conflicts b.nextMemory ||
    eventsConflict b.nextMemory a.nextEvents a || eventsConflict a.nextMemory b.nextEvents b

/-- Some two of the operations clash. -/
def anyClash : List State → Bool
  | [] => false
  | s :: rest => rest.any (clash s) || anyClash rest

/-- Each instance that starts an operation takes its own step; the others stay. R99 orders the reasons of one operation only:
where operations of several instances are refused, the first instance of the list has its reason recorded (DESIGN CHOICE, log
entry 12). An instance keeps its inputs and its outputs, even where another's operation writes over their memory (DESIGN CHOICE,
log entries 18 and 20). -/
def stepEach : List (Bool × State) → Host.Outcome (List State) Fault Refusal
  | [] => .next []
  | (starts, s) :: rest =>
    match (if starts then step s else .next s) with
    | .fault f => .fault f
    | .refused r => .refused r
    | .next t =>
      match stepEach rest with
      | .fault f => .fault f
      | .refused r => .refused r
      | .next ts => .next (t :: ts)

/-- The instances marked `true` start their operations at the same time, and the joint step ends when all have completed (log
entry 12). A clash breaks the host's duty (R36, R105), and that reason comes after every other an operation has (R99). -/
def stepTogether (sys : List (Bool × State)) : Host.Outcome (List State) Fault Refusal :=
  match stepEach sys with
  | .fault f => .fault f
  | .refused r => .refused r
  | .next ts =>
    if anyClash ((sys.filter Prod.fst).map Prod.snd) then .refused .hostDutyBroken else .next ts

end Sys2Proof.Machine
end

