-- ==== Sys2Proof/Safety.lean ====
section
/-! DEFINITION. What counts as a well-formed state and a safe run, in the terms the statements use. -/

namespace Sys2Proof.Machine

/-! ### Outputs -/

def OutPort.all : List OutPort := [.recOut, .tdOut, .bsOut, .xOut, .yOut, .hOut, .fOut, .obuf, .sout]

/-- The port holds a value the last operation drove. -/
def OutPorts.driven (o : OutPorts) (p : OutPort) : Bool := (o.value p).isSome

/-- Exactly the ports of operation `i` are driven (R17). -/
def OutPorts.exactly (o : OutPorts) (i : Instr) : Bool := OutPort.all.all (fun p => o.driven p == opDrives i p)

/-- No port is driven, or exactly those of one operation (R17, R24). -/
def OutPorts.coherent (o : OutPorts) : Bool :=
  decide (o = OutPorts.undriven) || [Instr.enc, .dec, .cvtHS, .cvtSH, .encs, .decs].any o.exactly

/-- A driven value fits its port (R16). -/
def OutPorts.fits (p : Params) (o : OutPorts) : Bool :=
  o.tdOut.all (fun v => decide (v < 2 ^ p.tdW)) && o.bsOut.all (fun v => decide (v < 2 ^ p.bsW)) &&
  o.obuf.all Buffer.wf && o.sout.all (fun l => l.all (Sample.fits p))

/-- The input ports hold values of their widths, and the input buffer is canonical (R16, R25). -/
def InPorts.fits (p : Params) (f : InPorts) : Bool :=
  decide (f.tdIn < 2 ^ p.tdW) && decide (f.bsIn < 2 ^ p.bsW) && f.sin.all (Sample.fits p) && f.ibuf.wf

/-- A well-formed state: a legal instance (R7), every port value of its port's width (R16), buffers canonical, outputs those
of one operation or none (R17), no operation in progress between steps (R18, R23). -/
def State.wf (s : State) : Bool :=
  s.params.legal && s.inp.fits s.params && s.out.fits s.params && s.out.coherent && !s.seq.busy

/-! ### Values -/

/-- A finite value as a signed count of units of `2^-149` (R78). -/
def signedUnits (neg : Bool) (mag : Nat) : Int := if neg then -(mag : Int) else mag

/-- An address lies in a region of host memory. -/
def Region.holds (r : Region) (a : Nat) : Prop := r.base ≤ a ∧ a < r.base + r.size

/-! ### Which addresses of host memory are touched (R36, R94) -/

/-- Operation `i` reads address `x`: ENCS the memory of `sin`, DECS every byte of `ibuf` (R37, R111). -/
def opReadsAt (s : State) (i : Instr) (x : Nat) : Prop :=
  i = .encs ∧ s.place.sinAt.holds x ∨
  i = .decs ∧ s.place.ibufAt ≤ x ∧ x < s.place.ibufAt + s.inp.ibuf.len

/-- Operation `i` writes address `x`: ENCS the `6*N` bytes of `obuf`, DECS the memory of `sout` (R33). -/
def opWritesAt (s : State) (i : Instr) (x : Nat) : Prop :=
  i = .encs ∧ s.place.obufAt ≤ x ∧ x < s.place.obufAt + 6 * s.inp.sin.length ∨
  i = .decs ∧ s.place.soutAt.holds x

/-- An event writes address `x`: plainly, or by driving a new `ibuf` or `sin` that lies there. -/
def eventWritesAt (s : State) (e : HostEvent) (x : Nat) : Prop :=
  (∃ r, e = .writeMemory r ∧ r.holds x) ∨
  (∃ v, e = .drive (.ibuf v) ∧ s.place.ibufAt ≤ x ∧ x < s.place.ibufAt + v.length) ∨
  ∃ v, e = .drive (.sin v) ∧ s.place.sinAt.holds x

/-- An event reads address `x`: plainly, or by reading `obuf` or `sout` that lies there. -/
def eventReadsAt (s : State) (e : HostEvent) (x : Nat) : Prop :=
  (∃ r, e = .readMemory r ∧ r.holds x) ∨
  e = .readOutput .obuf ∧ s.obufRegion.holds x ∨
  e = .readOutput .sout ∧ s.place.soutAt.holds x

/-- The event touches host memory in a way R36 forbids while operation `i` of `s` runs; the host has reached state `u`. -/
def touchesForbidden (s : State) (i : Instr) (u : State) (e : HostEvent) : Prop :=
  ∃ x, eventWritesAt u e x ∧ (opReadsAt s i x ∨ opWritesAt s i x) ∨ eventReadsAt u e x ∧ opWritesAt s i x

/-- Two operations use host memory in a way R36 and R105 forbid at the same time. -/
def operationsClash (a : State) (i : Instr) (b : State) (j : Instr) : Prop :=
  ∃ x, opWritesAt a i x ∧ (opReadsAt b j x ∨ opWritesAt b j x) ∨ opReadsAt a i x ∧ opWritesAt b j x

/-! ### Which operations complete (R96, R97, R98, R115) -/

/-- The input and output regions of a stream operation overlap (R37); the datapath operations have none. -/
def streamOverlaps (s : State) : Instr → Bool
  | .enc => false
  | .dec => false
  | .cvtHS => false
  | .cvtSH => false
  | .encs => s.place.sinAt.overlaps s.obufRegion
  | .decs => s.ibufRegion.overlaps s.place.soutAt

/-- The record count of a stream operation exceeds a bounded MAX_N (R66, R75). -/
def streamExceeds (s : State) : Instr → Bool
  | .enc => false
  | .dec => false
  | .cvtHS => false
  | .cvtSH => false
  | .encs => exceedsMax s.params s.inp.sin.length
  | .decs => exceedsMax s.params s.inp.ibuf.recordCount

/-- The operation is there and not refused on this state. -/
def opReady (s : State) (i : Instr) : Bool := WellFormed s.params i && !streamOverlaps s i && !streamExceeds s i

/-- The host breaks no duty around operation `i` in its next turn (R109, R111, R112). -/
def dutiesKept (s : State) (i : Instr) : Bool :=
  match s.host with
  | [] => true
  | t :: rest => (duringOp i t.during (s.withHost rest)).isSome

/-- A safe step: the operation completes and is not refused. -/
def SafeStep (s : State) : Prop := ∃ t, step s = .next t

/-- A safe run of `k` operations: none is refused. -/
def SafeRun (k : Nat) (s : State) : Prop := ∃ t, Sys2Proof.core.run k s = .next t

end Sys2Proof.Machine
end

