-- ==== Sys2Proof/Certificates/Slice0/Obligations.lean ====
section
/-! DEFINITION. The statements for the provers. Magnitudes are counted in units of `2^-149` (`FloatValue`): `2^-14` is `2^135`
units, `2^-25` is `2^124` units, 65504 is `65504 * 2^149` units. -/

open Sys2Proof Sys2Proof.Machine

/-! ### Selecting an operation, and the step -/

/-- R43 and R44, words written out: the sanity statement of the decoder, on the port and from a table word. The codes are the spec's
own decision D4; that a table word's select is its three low bits is the model's choice (log entry 10). -/
def Obligations.SelectCodesDecodeAsTabled : Prop :=
  decode 0b000#3 = .ok .enc ∧ decode 0b001#3 = .ok .dec ∧ decode 0b010#3 = .ok .cvtHS ∧
  decode 0b011#3 = .ok .cvtSH ∧ decode 0b100#3 = .ok .encs ∧ decode 0b101#3 = .ok .decs ∧
  decode 0b110#3 = .error (.reservedOp 0b110#3) ∧ decode 0b111#3 = .error (.reservedOp 0b111#3) ∧
  decodeTableWord 8 0 = some .enc ∧ decodeTableWord 8 1 = some .dec ∧ decodeTableWord 8 2 = some .cvtHS ∧
  decodeTableWord 8 3 = some .cvtSH ∧ decodeTableWord 8 4 = some .encs ∧ decodeTableWord 8 5 = some .decs ∧
  decodeTableWord 8 6 = none ∧ decodeTableWord 8 7 = none

/-- A step runs exactly the operation whose code is on `op`, then the host's turn (log entry 7); with nothing planned by the
host the step is the operation. -/
def Obligations.StepRunsSelectedOperation : Prop :=
  ∀ (s : State) (i : Instr), decode s.inp.op = .ok i →
    (s.seq.busy = false → ∀ t, exec i s = .next t → step s = hostTurn i t) ∧
    (s.seq.busy = false → s.host = [] → step s = exec i s) ∧
    (s.seq.busy = true → ∀ t, exec i s = .next t → step s = .refused .hostDutyBroken) ∧
    ∀ r, exec i s = .refused r → step s = .refused r

/-- R44 and R97 (the spec's decision D5): exactly the codes `110` and `111` are refused as reserved. -/
def Obligations.ReservedCodesAreRefused : Prop :=
  ∀ s : State, step s = .refused .reservedOp ↔ s.inp.op = 0b110#3 ∨ s.inp.op = 0b111#3

/-- R98 and R99 (the spec's decision D19): on a code that is an operation, which reason is met first; no other refusal is ever given. -/
def Obligations.StepRefusalsFollowTheListedOrder : Prop :=
  ∀ (s : State) (i : Instr) (r : Refusal), s.inp.op = encode i →
    (step s = .refused r ↔
      ((i = .cvtHS ∨ i = .cvtSH) ∧ s.params.hasCvt = false ∧ r = .cvtAbsent) ∨
      (streamOverlaps s i = true ∧ r = .bufferOverlap) ∨
      (streamOverlaps s i = false ∧ streamExceeds s i = true ∧ r = .streamTooLong) ∨
      (opReady s i = true ∧ (s.seq.busy = true ∨ dutiesKept s i = false) ∧ r = .hostDutyBroken))

/-- R96, R97, R98, R109, R111, R112 and R115 together: a step completes exactly when its code is an operation, the operation is not
refused on its inputs, nothing is in progress and the host keeps its duties. The refusals are the spec's decisions D5, D16, D17, D20, D29. -/
def Obligations.StepCompletesExactlyWhenNotRefused : Prop :=
  ∀ s : State, SafeStep s ↔
    ∃ i, s.inp.op = encode i ∧ opReady s i = true ∧ s.seq.busy = false ∧ dutiesKept s i = true

/-! ### Reset -/

/-- R24 and R108 (the spec's decision D20): reset leaves the sequencer idle and no output port with a value, and does not affect the
parameters. That asserting reset also keeps the inputs and the placement is the model's reading (log entry 17): R24 says only that the
block gives the inputs no value. The zeros of State.reset's inputs are the model's (log entries 3 to 5) and are not stated. -/
def Obligations.ResetLeavesIdleAndUndriven : Prop :=
  State.reset.seq.busy = false ∧ (∀ p, readOut State.reset p = .error .undrivenRead) ∧
  State.reset.params.tdW = 16 ∧ State.reset.params.bsW = 8 ∧ State.reset.params.hasCvt = true ∧
  ∀ s : State, s.assertReset.seq.busy = false ∧ (∀ p, readOut s.assertReset p = .error .undrivenRead) ∧
    s.assertReset.params = s.params ∧ s.assertReset.inp = s.inp ∧ s.assertReset.place = s.place

/-- State.reset meets the invariant of StepKeepsStateWellFormed. R24 gives the outputs, `busy` and the parameters; the inputs, and
MAX_N unbounded, are the model's choices (log entries 3 and 2), and so is the form of a buffer (log entry 6). -/
def Obligations.ResetIsWellFormed : Prop :=
  State.reset.wf = true

/-- Widths (R7, R16), outputs of one operation only (R17) and idleness (R23) hold after every step from any state that has them, and so
does the canonical form of buffers, which is the model's choice (log entry 6). That a drive keeps the low TD_W and BS_W bits, and what
the host can do in its turn, are the model's choices too (log entries 8 and 7). -/
def Obligations.StepKeepsStateWellFormed : Prop :=
  ∀ s t : State, s.wf = true → step s = .next t → t.wf = true

/-- R21: no operation writes a parameter. The inputs are the host's (R16, R24): without a turn of the host, a step changes none but an input
of a stream whose memory a stream operation wrote over (R36), `ibuf` by ENCS and `sin` by DECS. The model's choices: the lengths of these
two stay (log entry 21), a step uses up one turn of the host (log entry 7), and a region is a base and a size (log entry 5). -/
def Obligations.StepKeepsParametersAndInputs : Prop :=
  ∀ s t : State, step s = .next t →
    t.params = s.params ∧ t.host = s.host.tail ∧
    (s.host = [] → t.place = s.place ∧ t.inp = { s.inp with sin := t.inp.sin, ibuf := t.inp.ibuf } ∧
      t.inp.sin.length = s.inp.sin.length ∧ t.inp.ibuf.len = s.inp.ibuf.len ∧
      (t.inp.ibuf ≠ s.inp.ibuf → s.inp.op = encode .encs ∧ s.ibufRegion.overlaps s.obufRegion = true) ∧
      (t.inp.sin ≠ s.inp.sin → s.inp.op = encode .decs ∧ s.place.sinAt.overlaps s.place.soutAt = true))

/-! ### ENC -/

/-- ENC completes on every state (R61) and `rec_out` is `{hy, hx, w0}`, with word 0 the OR, and the sum, of its two fields (R58), and
each coordinate rounded from its own input alone (R59). -/
def Obligations.EncDrivesPackedRecord : Prop :=
  ∀ s : State, ∃ t r, exec .enc s = .next t ∧ t.out.recOut = some r ∧
    (Rec.w0 r).toNat = (s.inp.tdIn % 2048) ||| ((s.inp.bsIn % 32) <<< 11) ∧
    (Rec.w0 r).toNat = s.inp.tdIn % 2048 + 2048 * (s.inp.bsIn % 32) ∧
    Rec.hx r = f32ToF16 s.inp.xIn ∧ Rec.hy r = f32ToF16 s.inp.yIn

/-- R56: the field is `td mod 2048`, and no higher bit of `td` reaches any bit of the record. -/
def Obligations.TimeDeltaFieldIsLowElevenBits : Prop :=
  (∀ s : Sample, (Rec.td (encRec s)).toNat = s.td % 2048 ∧ (Rec.td (encRec s)).toNat = s.td &&& 0x7FF) ∧
  ∀ (s : Sample) (d : Nat), d % 2048 = s.td % 2048 → encRec { s with td := d } = encRec s

/-- R57: the field is `bs mod 32`; a host that reads the `BS_W` bits as the two's-complement number `v` finds `v mod 32`; -1 gives 31 and
-16 gives 16; no higher bit of `bs` reaches the record. -/
def Obligations.ButtonFieldIsLowFiveBits : Prop :=
  (∀ s : Sample, (Rec.btn (encRec s)).toNat = s.bs % 32) ∧
  (∀ (p : Params) (s : Sample), p.legal = true → s.bs < 2 ^ p.bsW →
    ((Rec.btn (encRec s)).toNat : Int) = asSigned p.bsW s.bs % 32 ∧
    (asSigned p.bsW s.bs = -1 → (Rec.btn (encRec s)).toNat = 31) ∧
    (asSigned p.bsW s.bs = -16 → (Rec.btn (encRec s)).toNat = 16)) ∧
  ∀ (s : Sample) (d : Nat), d % 32 = s.bs % 32 → encRec { s with bs := d } = encRec s

/-- R45: what each of the six bytes of a record holds. -/
def Obligations.RecordBytesHoldTheirFields : Prop :=
  ∀ r : Rec,
    Rec.byte r 0 = (Rec.td r).extractLsb' 0 8 ∧
    Rec.byte r 1 = Rec.btn r ++ (Rec.td r).extractLsb' 8 3 ∧
    Rec.byte r 2 = (Rec.hx r).extractLsb' 0 8 ∧ Rec.byte r 3 = (Rec.hx r).extractLsb' 8 8 ∧
    Rec.byte r 4 = (Rec.hy r).extractLsb' 0 8 ∧ Rec.byte r 5 = (Rec.hy r).extractLsb' 8 8

/-! ### DEC -/

/-- DEC completes on every record (R71, R72); the time delta is the low 11 bits of word 0, zero-extended (R67), and each coordinate is the
widening of its own word (R69). The button field, zero-extended, is the spec's decision D13 (R68). -/
def Obligations.DecDrivesUnpackedSample : Prop :=
  ∀ s : State, s.params.legal = true → ∃ t, exec .dec s = .next t ∧
    t.out.tdOut = some (s.inp.recIn.toNat % 2048) ∧
    t.out.bsOut = some (s.inp.recIn.toNat / 2048 % 32) ∧
    t.out.xOut = some (f16ToF32 (s.inp.recIn.extractLsb' 16 16)) ∧
    t.out.yOut = some (f16ToF32 (s.inp.recIn.extractLsb' 32 16))

/-- R22 and R68 (the spec's decision D13): the decoded button state is the field's unsigned value, and stays non-negative for a host that
reads the port as two's complement, because `BS_W >= 6`. -/
def Obligations.DecodedButtonsNeverNegative : Prop :=
  ∀ (p : Params) (r : Rec), p.legal = true →
    (decRec p r).bs = (Rec.btn r).toNat ∧ (decRec p r).bs < 32 ∧
    asSigned p.bsW (decRec p r).bs = ((Rec.btn r).toNat : Int)

/-! ### The converters as operations -/

/-- CVT.H.S (R89): it completes on an instance with converters and drives `h_out`; without them the code is refused (R97, the spec's
decision D5). -/
def Obligations.CvtHSNarrowsOrIsAbsent : Prop :=
  ∀ s : State,
    (s.params.hasCvt = true → ∃ t, exec .cvtHS s = .next t ∧ t.out.hOut = some (f32ToF16 s.inp.fIn)) ∧
    (s.params.hasCvt = false → exec .cvtHS s = .refused .cvtAbsent)

/-- CVT.S.H (R90): it completes on an instance with converters and drives `f_out`; without them the code is refused (R97, the spec's
decision D5). -/
def Obligations.CvtSHWidensOrIsAbsent : Prop :=
  ∀ s : State,
    (s.params.hasCvt = true → ∃ t, exec .cvtSH s = .next t ∧ t.out.fOut = some (f16ToF32 s.inp.hIn)) ∧
    (s.params.hasCvt = false → exec .cvtSH s = .refused .cvtAbsent)

/-! ### ENCS -/

/-- ENCS completes whenever its regions are disjoint and the count is within MAX_N: `obuf` has exactly `6*N` bytes (R64), and record `i`
is at offset `6*i`, byte for byte (R65). -/
def Obligations.EncsWritesRecordsInOrder : Prop :=
  ∀ s : State, s.place.sinAt.overlaps s.obufRegion = false → exceedsMax s.params s.inp.sin.length = false →
    ∃ t B, exec .encs s = .next t ∧ t.out.obuf = some B ∧
      B.len = 6 * s.inp.sin.length ∧ (s.inp.sin = [] → B.bytes = []) ∧
      ∀ (i : Nat) (hi : i < s.inp.sin.length) (k : Nat), k < 6 →
        B.byte? (6 * i + k) = some (Rec.byte (encRec s.inp.sin[i]) k)

/-- R37, R66 and R99 (the spec's decisions D16, D17, D19): ENCS is refused exactly when some address lies both in the memory of `sin` and in the
`6*N` bytes of the output region, or else when the count exceeds a bounded MAX_N. -/
def Obligations.EncsRefusedOnOverlapOrLength : Prop :=
  ∀ (s : State) (r : Refusal), exec .encs s = .refused r ↔
    ((∃ a, s.place.sinAt.holds a ∧ s.place.obufAt ≤ a ∧ a < s.place.obufAt + 6 * s.inp.sin.length) ∧
      r = .bufferOverlap) ∨
    ((¬ ∃ a, s.place.sinAt.holds a ∧ s.place.obufAt ≤ a ∧ a < s.place.obufAt + 6 * s.inp.sin.length) ∧
      (∃ k, s.params.maxN = some k ∧ k < s.inp.sin.length) ∧ r = .streamTooLong)

/-! ### DECS -/

/-- DECS completes whenever its regions are disjoint and the count is within MAX_N: `sout` has `floor(L / 6)` samples (R74), sample `i` decoded
from the six bytes at `6*i` (R26) with the trailing bytes out of the count. -/
def Obligations.DecsReadsWholeRecords : Prop :=
  ∀ s : State, s.ibufRegion.overlaps s.place.soutAt = false →
    exceedsMax s.params (s.inp.ibuf.len / 6) = false →
    ∃ t S, exec .decs s = .next t ∧ t.out.sout = some S ∧
      S.length = s.inp.ibuf.len / 6 ∧ (s.inp.ibuf.len < 6 → S = []) ∧
      (∀ N k, k < 6 → s.inp.ibuf.len = 6 * N + k → S.length = N) ∧
      ∀ i, i < s.inp.ibuf.len / 6 →
        S[i]? = some (decRec s.params (Rec.ofBytes
          (s.inp.ibuf.byte (6 * i)) (s.inp.ibuf.byte (6 * i + 1)) (s.inp.ibuf.byte (6 * i + 2))
          (s.inp.ibuf.byte (6 * i + 3)) (s.inp.ibuf.byte (6 * i + 4)) (s.inp.ibuf.byte (6 * i + 5))))

/-- R31 (with the spec's decision D26): two buffers with equally many whole records and the same bytes in them give the same `sout`, whatever the
trailing bytes are and however many. -/
def Obligations.TrailingBytesHaveNoEffect : Prop :=
  ∀ s s' : State, s.params = s'.params → s.inp.ibuf.len / 6 = s'.inp.ibuf.len / 6 →
    (∀ off, off < 6 * (s.inp.ibuf.len / 6) → s.inp.ibuf.byte off = s'.inp.ibuf.byte off) →
    opReady s .decs = true → opReady s' .decs = true →
    ∃ t t', exec .decs s = .next t ∧ exec .decs s' = .next t' ∧ t.out = t'.out

/-- R37, R75 and R99 (the spec's decisions D16, D17, D19), as for ENCS. -/
def Obligations.DecsRefusedOnOverlapOrLength : Prop :=
  ∀ (s : State) (r : Refusal), exec .decs s = .refused r ↔
    ((∃ a, s.place.ibufAt ≤ a ∧ a < s.place.ibufAt + s.inp.ibuf.len ∧ s.place.soutAt.holds a) ∧
      r = .bufferOverlap) ∨
    ((¬ ∃ a, s.place.ibufAt ≤ a ∧ a < s.place.ibufAt + s.inp.ibuf.len ∧ s.place.soutAt.holds a) ∧
      (∃ k, s.params.maxN = some k ∧ k < s.inp.ibuf.len / 6) ∧ r = .streamTooLong)

/-! ### Frames -/

/-- What ENC, DEC, CVT.H.S and CVT.S.H leave unchanged: everything but the output ports they drive; every other output port has no value
(R17, the spec's decision D6). They reach no memory (R94): every byte of the input buffer reads as before. That they leave the
sequencer's `i` and `N` alone is the model's choice (log entry 4). -/
def Obligations.DatapathOperationsFrame : Prop :=
  ∀ (i : Instr) (s t : State), i = .enc ∨ i = .dec ∨ i = .cvtHS ∨ i = .cvtSH → exec i s = .next t →
    t.params = s.params ∧ t.inp = s.inp ∧ t.place = s.place ∧ t.seq = s.seq ∧ t.host = s.host ∧ t.draws = s.draws ∧
    (∀ off, t.inp.ibuf.byte? off = s.inp.ibuf.byte? off) ∧
    ∀ p, opDrives i p = false → t.out.value p = none

/-- What ENCS leaves unchanged: all but `obuf`, the sequencer, which ends idle (R23), and the bytes of `ibuf` it stored to. The bytes stored are
the `6*N` from the base of `obuf` on (R33): `obuf` has no other offset, and every byte of `ibuf` at another address reads as before, while
one at a stored address reads as the byte of `obuf` there (R36, read as storing by address). The model's choices: `i = N` after
completion (log entry 4), the canonical form of `obuf` (log entry 6), a region as a base and a size (log entry 5), and that `ibuf` keeps
its length (log entry 21). -/
def Obligations.EncsFrame : Prop :=
  ∀ s t : State, exec .encs s = .next t →
    t.params = s.params ∧ t.inp = { s.inp with ibuf := t.inp.ibuf } ∧ t.place = s.place ∧ t.host = s.host ∧ t.draws = s.draws ∧
    t.seq = { busy := false, n := s.inp.sin.length, i := s.inp.sin.length } ∧
    t.inp.ibuf.len = s.inp.ibuf.len ∧ (s.ibufRegion.overlaps s.obufRegion = false → t.inp = s.inp) ∧
    (∃ B, t.out.obuf = some B ∧ B.wf = true ∧ (∀ off, 6 * s.inp.sin.length ≤ off → B.byte? off = none) ∧
      ∀ off, off < s.inp.ibuf.len →
        t.inp.ibuf.byte off =
          if s.place.obufAt ≤ s.place.ibufAt + off ∧ s.place.ibufAt + off < s.place.obufAt + 6 * s.inp.sin.length
          then B.byte (s.place.ibufAt + off - s.place.obufAt) else s.inp.ibuf.byte off) ∧
    ∀ p, opDrives .encs p = false → t.out.value p = none

/-- What DECS leaves unchanged: all but `sout`, the sequencer, which ends idle (R23), and a `sin` that lies under `sout` (R36). It stores no
byte of a buffer: every byte of the input buffer reads as before. Where it does write over `sin`, the number of samples stays, and what
they read as is a free value, of which nothing is stated (both log entry 21). The model's other choice: `i = N` after completion (log
entry 4). -/
def Obligations.DecsFrame : Prop :=
  ∀ s t : State, exec .decs s = .next t →
    t.params = s.params ∧ t.inp = { s.inp with sin := t.inp.sin } ∧ t.place = s.place ∧ t.host = s.host ∧
    t.seq = { busy := false, n := s.inp.ibuf.len / 6, i := s.inp.ibuf.len / 6 } ∧
    t.inp.sin.length = s.inp.sin.length ∧
    ((s.inp.ibuf.len < 6 ∨ ¬ ∃ x, s.place.sinAt.holds x ∧ s.place.soutAt.holds x) → t.inp = s.inp ∧ t.draws = s.draws) ∧
    (∀ off, t.inp.ibuf.byte? off = s.inp.ibuf.byte? off) ∧
    ∀ p, opDrives .decs p = false → t.out.value p = none

/-- R36: the next operation sees the complete result of the one before. With `ibuf` placed exactly where ENCS puts `obuf`, the DECS that
follows, with no drive of `ibuf` in between, decodes what ENCS encoded (R76). That results are stored by address, over a base and a
size the host states, is the model's form of host memory (log entry 5). -/
def Obligations.DecsSeesWhatEncsWrote : Prop :=
  ∀ s : State, s.wf = true → s.inp.op = encode .encs → opReady s .encs = true → s.host = [] →
    s.place.ibufAt = s.place.obufAt → s.inp.ibuf.len = 6 * s.inp.sin.length →
    ∃ t, step s = .next t ∧ t.out.obuf = some t.inp.ibuf ∧
      (opReady t .decs = true → ∃ v, step (t.drive (.op (encode .decs))) = .next v ∧
        v.out.sout = some (s.inp.sin.map (fun a =>
          { td := a.td % 2048, bs := a.bs % 32, x := quantise a.x, y := quantise a.y })))

/-! ### Outputs and statelessness -/

/-- R17 (the spec's decision D6): after an operation, a read of a port it drives gives a value, and a read of any other port is refused. -/
def Obligations.OnlyDrivenPortsCanBeRead : Prop :=
  ∀ (i : Instr) (s t : State) (p : OutPort), exec i s = .next t →
    (opDrives i p = true → ∃ v, readOut t p = .ok v) ∧
    (opDrives i p = false → readOut t p = .error .undrivenRead)

/-- R15, R62 and R108: an operation's outcome is a function of its inputs alone; neither earlier outputs, nor the sequencer, nor what the host
plans next bears on it. -/
def Obligations.OutcomeDependsOnInputsAlone : Prop :=
  ∀ (i : Instr) (s s' : State), s.params = s'.params → s.inp = s'.inp → s.place = s'.place →
    (∀ t, exec i s = .next t → ∃ t', exec i s' = .next t' ∧ t'.out = t.out) ∧
    ∀ r, exec i s = .refused r → exec i s' = .refused r

/-! ### Buffers -/

/-- R27: in a record of a buffer the three words are the little-endian values at `6*i`, `6*i+2` and `6*i+4`. -/
def Obligations.RecordWordsAreLittleEndian : Prop :=
  ∀ (B : Buffer) (i : Nat), 6 * i + 6 ≤ B.len →
    B.memRead (6 * i) 2 = some (Rec.w0 (B.recordAt i)).toNat ∧
    B.memRead (6 * i + 2) 2 = some (Rec.hx (B.recordAt i)).toNat ∧
    B.memRead (6 * i + 4) 2 = some (Rec.hy (B.recordAt i)).toNat ∧
    ∀ off, off + 2 ≤ B.len →
      B.memRead off 2 = some ((B.byte off).toNat + 2 ^ 8 * (B.byte (off + 1)).toNat)

/-- R10: MemRead after MemWrite. The window written reads as the value's low bytes, and a window apart from it reads as before. The
canonical form, which the write keeps, and that a window outside the buffer reads as no value, before and after, are the model's
choices (log entry 6). -/
def Obligations.BufferReadAfterWrite : Prop :=
  ∀ (B : Buffer) (off n v : Nat), B.wf = true → off + n ≤ B.len →
    (B.memWrite off n v).wf = true ∧ (B.memWrite off n v).len = B.len ∧
    (B.memWrite off n v).memRead off n = some (v % 2 ^ (8 * n)) ∧
    ∀ off' n', off' + n' ≤ off ∨ off + n ≤ off' → (B.memWrite off n v).memRead off' n' = B.memRead off' n'

/-! ### F32 to F16 -/

/-- R79 (the spec's decision D7): below the overflow threshold the result is the nearest binary16 value to the exact input, and where another
value is equally near, the result's last fraction bit is 0. -/
def Obligations.NarrowingIsNearestTiesToEven : Prop :=
  ∀ (a : F32) (neg : Bool) (m : Nat), f32Value a = .finite neg m → m < 65520 * 2 ^ 149 →
    ∃ r, f16Value (f32ToF16 a) = .finite neg r ∧
      ∀ (g : F16) (gneg : Bool) (k : Nat), f16Value g = .finite gneg k →
        |signedUnits neg r - signedUnits neg m| ≤ |signedUnits gneg k - signedUnits neg m| ∧
        (|signedUnits neg r - signedUnits neg m| = |signedUnits gneg k - signedUnits neg m| →
          signedUnits gneg k ≠ signedUnits neg r → f16Frac (f32ToF16 a) % 2 = 0)

/-- R81 (the spec's decision D8): a finite magnitude of 65520 or more, and an infinity, gives the infinity of its sign; below 65520 the result is
finite and at most 65504. -/
def Obligations.NarrowingOverflowsToInfinity : Prop :=
  (∀ (a : F32) (neg : Bool) (m : Nat), f32Value a = .finite neg m → 65520 * 2 ^ 149 ≤ m →
    f32ToF16 a = if neg then 0xFC00#16 else 0x7C00#16) ∧
  (∀ (a : F32) (neg : Bool) (m : Nat), f32Value a = .finite neg m → m < 65520 * 2 ^ 149 →
    ∃ r, f16Value (f32ToF16 a) = .finite neg r ∧ r ≤ 65504 * 2 ^ 149) ∧
  ∀ (a : F32) (neg : Bool), f32Value a = .inf neg → f32ToF16 a = if neg then 0xFC00#16 else 0x7C00#16

/-- R82 and R87 (the spec's decisions D9 and D10): a NaN converts to the quiet NaN of its sign with its top payload bits, both ways. -/
def Obligations.NaNsComeOutQuiet : Prop :=
  (∀ a : F32, f32IsNaN a = true →
    f16IsNaN (f32ToF16 a) = true ∧ f16IsSignalling (f32ToF16 a) = false ∧
    f16Sign (f32ToF16 a) = f32Sign a ∧ f16Frac (f32ToF16 a) = 0x200 ||| (f32Frac a / 2 ^ 13)) ∧
  ∀ h : F16, f16IsNaN h = true →
    f32IsNaN (f16ToF32 h) = true ∧ f32Sign (f16ToF32 h) = f16Sign h ∧
    f32Frac (f16ToF32 h) = 2 ^ 22 ||| (f16Frac h * 2 ^ 13)

/-- R83 (the spec's decision D11): a magnitude of `2^-25` or less converts to the zero of its sign, any larger one to a value that is not
zero: no subnormal result is flushed. -/
def Obligations.SubnormalResultsAreNotFlushed : Prop :=
  ∀ (a : F32) (neg : Bool) (m : Nat), f32Value a = .finite neg m →
    (m ≤ 2 ^ 124 → f32ToF16 a = if neg then 0x8000#16 else 0x0000#16) ∧
    (2 ^ 124 < m → f16Magnitude (f32Exp a) (f32Frac a) ≠ 0 ∧ f32ToF16 a ≠ 0x0000#16 ∧ f32ToF16 a ≠ 0x8000#16)

/-! ### F16 to F32, and the laws of the two conversions -/

/-- R86: widening is exact, infinities and signed zeros included. -/
def Obligations.WideningKeepsTheValue : Prop :=
  ∀ h : F16, f16IsNaN h = false → f32Value (f16ToF32 h) = f16Value h

/-- R91 L1 (a law the spec marks as derived). -/
def Obligations.WideningThenNarrowingIsIdentity : Prop :=
  ∀ h : F16, (f16IsNaN h = false → f32ToF16 (f16ToF32 h) = h) ∧
    (f16IsNaN h = true → f32ToF16 (f16ToF32 h) = h ||| 0x0200#16)

/-- R91 L2 (a law the spec marks as derived). -/
def Obligations.QuantisationIsIdempotent : Prop :=
  ∀ x : F32, quantise (quantise x) = quantise x

/-- R84 and R91 L3 (a law the spec marks as derived): the sign is kept both ways, for every input. -/
def Obligations.SignsAreKept : Prop :=
  (∀ a : F32, f16Sign (f32ToF16 a) = f32Sign a) ∧ ∀ h : F16, f32Sign (f16ToF32 h) = f16Sign h

/-- R91 L4 (a law the spec marks as derived): a value that is exactly a binary16 value is left as it is, bit for bit. -/
def Obligations.RepresentableValuesAreUnchanged : Prop :=
  ∀ (x : F32) (h : F16), f32IsNaN x = false → f32Value x = f16Value h → quantise x = x

/-- R91 L5 (a law the spec marks as derived): in the normal range the relative error is at most `2^-11`. -/
def Obligations.RelativeErrorIsAtMostTwoToMinusEleven : Prop :=
  ∀ (x : F32) (neg : Bool) (m : Nat), f32Value x = .finite neg m → 2 ^ 135 ≤ m → m < 65520 * 2 ^ 149 →
    ∃ q, f32Value (quantise x) = .finite neg q ∧ 2 ^ 11 * |(q : Int) - (m : Int)| ≤ (m : Int)

/-! ### Round trips of records and streams -/

/-- R76, one sample (a law the spec marks as derived). -/
def Obligations.DecodeAfterEncodeOfSample : Prop :=
  ∀ (p : Params) (s : Sample), p.legal = true →
    decRec p (encRec s) = { td := s.td % 2048, bs := s.bs % 32, x := quantise s.x, y := quantise s.y }

/-- R77 (a law the spec marks as derived): a record comes back bit for bit, but for a signalling NaN's quiet bit. -/
def Obligations.EncodeAfterDecodeOfRecord : Prop :=
  ∀ (p : Params) (r : Rec), p.legal = true →
    encRec (decRec p r) = Rec.pack (Rec.td r) (Rec.btn r) (quieten (Rec.hx r)) (quieten (Rec.hy r)) ∧
    (f16IsSignalling (Rec.hx r) = false → f16IsSignalling (Rec.hy r) = false → encRec (decRec p r) = r)

/-- R76, streams (a law the spec marks as derived): ENCS, then DECS of the very bytes it left, on any instance with the same parameters. -/
def Obligations.StreamRoundTrip : Prop :=
  ∀ s : State, s.params.legal = true → opReady s .encs = true →
    ∃ t B, exec .encs s = .next t ∧ t.out.obuf = some B ∧
      ∀ u : State, u.params = s.params → u.inp.ibuf = Buffer.ofBytes B.bytes → opReady u .decs = true →
        ∃ v, exec .decs u = .next v ∧ v.out.sout = some (s.inp.sin.map (fun a =>
          { td := a.td % 2048, bs := a.bs % 32, x := quantise a.x, y := quantise a.y }))

/-! ### The host -/

/-- R109, R111 and R112 (the spec's decisions D17, D20, D29): starting the next operation, asserting reset, reading an output the operation is to
drive, or giving an input it reads another value, at any point of the turn, is refused. That moving the region of an operand the
operation uses is refused too is the model's reading (log entry 11): R16 lists no region among the ports. -/
def Obligations.BrokenHostDutyIsRefused : Prop :=
  ∀ (s t : State) (i : Instr) (turn : Turn) (rest : List Turn),
    s.inp.op = encode i → exec i s = .next t → s.host = turn :: rest →
    (∀ e ∈ turn.during, (e = .startNext ∨ e = .assertReset ∨ ∃ p, e = .readOutput p ∧ opDrives i p = true) →
      step s = .refused .hostDutyBroken) ∧
    ∀ d, HostEvent.drive d ∈ turn.during → opReads i d.port = true →
      ((s.drive d).inp ≠ s.inp ∨ (s.drive d).place ≠ s.place) → step s = .refused .hostDutyBroken

/-- R36 and R111 (the spec's decision D17), by address: a write into the input or the output of the stream operation in progress, under
whatever name the memory is written, and a read of its output, is refused; `u` is the state the host has reached before the event. That
memory is judged by address and not by port name is the model's reading (log entry 11); where a driven `ibuf` or `sin` is written, and
which memory a read of another operation's `obuf` or `sout` covers, are the model's choices (log entry 18). -/
def Obligations.TouchingOperationsMemoryIsRefused : Prop :=
  ∀ (s t u : State) (i : Instr) (turn : Turn) (rest : List Turn) (before after : List HostEvent) (e : HostEvent),
    s.inp.op = encode i → exec i s = .next t → s.host = turn :: rest → turn.during = before ++ e :: after →
    duringOp i before (t.withHost rest) = some u → touchesForbidden s i u e →
    step s = .refused .hostDutyBroken

/-- R36 and R111 read the other way: plain reads and writes of host memory, and reads of output ports the operation does not drive, that
stay clear of the operation's memory break no duty. That memory is judged by address is the model's reading (log entry 11); that they
change no port, and which memory an output port covers, are the model's choices (log entry 18). -/
def Obligations.ClearMemoryAccessIsNoBrokenDuty : Prop :=
  ∀ (s t : State) (i : Instr) (turn : Turn) (rest : List Turn),
    s.inp.op = encode i → s.seq.busy = false → s.host = turn :: rest → turn.after = [] → exec i s = .next t →
    (∀ e ∈ turn.during, ((∃ r, e = .readMemory r) ∨ (∃ r, e = .writeMemory r) ∨ ∃ p, e = .readOutput p ∧ opDrives i p = false) ∧
      ¬ touchesForbidden s i s e) →
    step s = .next (t.withHost rest)

/-- R111 read the other way: an input the operation does not read may change while it runs, where that stays clear of the operation's memory;
the operation's outputs are the same. That the drive takes effect on the state the operation leaves, and that a region moved counts as
read where it was and written where it comes to lie (`Drive.memory`), are the model's choices (log entries 7 and 18). -/
def Obligations.UnreadInputsMayChangeDuringOperation : Prop :=
  ∀ (s t : State) (i : Instr) (d : Drive),
    s.inp.op = encode i → s.seq.busy = false → s.host = [{ during := [.drive d], after := [] }] → opReads i d.port = false →
    (∀ r ∈ (d.memory s).writes, ∀ x, r.holds x → ¬ (opReadsAt s i x ∨ opWritesAt s i x)) →
    (∀ r ∈ (d.memory s).reads, ∀ x, r.holds x → ¬ opWritesAt s i x) →
    exec i s = .next t →
    ∃ u, step s = .next u ∧ u.out = t.out ∧ u.inp = (t.drive d).inp ∧ u.place = (t.drive d).place ∧ u.host = []

/-- R55: QUANT leaves `Q` of its source in its destination. Its `t` is fresh: every other host variable that holds a value keeps it. -/
def Obligations.QuantProgramQuantises : Prop :=
  ∀ (f2 f1 : Var) (v : F32) (env : Env) (s : State),
    env.get f1 = some (.f32 v) → s.params.hasCvt = true → s.seq.busy = false → s.host = [] →
    ∃ env' t, runSource [.quant f2 f1] env s = .done env' t ∧
      env'.get f2 = some (.f32 (quantise v)) ∧
      ∀ w x, w ≠ f2 → env.get w = some x → env'.get w = some x

/-- R55 with R76: ROUNDTRIP leaves the truncated fields and the quantised coordinates in the fields of its destination sample. Its `r` is
fresh: every other host variable that holds a value keeps it. -/
def Obligations.RoundtripProgramTruncatesAndQuantises : Prop :=
  ∀ (s2 s1 td bs : Nat) (x y : F32) (env : Env) (s : State),
    env.get ⟨s1, some .td⟩ = some (.int td) → env.get ⟨s1, some .bs⟩ = some (.int bs) →
    env.get ⟨s1, some .x⟩ = some (.f32 x) → env.get ⟨s1, some .y⟩ = some (.f32 y) →
    s.params.legal = true → s.seq.busy = false → s.host = [] →
    ∃ env' t, runSource [.roundtrip s2 s1] env s = .done env' t ∧
      env'.get ⟨s2, some .td⟩ = some (.int (td % 2048)) ∧ env'.get ⟨s2, some .bs⟩ = some (.int (bs % 32)) ∧
      env'.get ⟨s2, some .x⟩ = some (.f32 (quantise x)) ∧ env'.get ⟨s2, some .y⟩ = some (.f32 (quantise y)) ∧
      ∀ w z, (∀ f, w ≠ ⟨s2, some f⟩) → env.get w = some z → env'.get w = some z

/-! ### Several instances -/

/-- R105 (the spec's decision D24): instances share no state and never interact, so where no operations clash each that starts does exactly
what it does alone, and the others stay as they are. The model's choices: an instance's inputs and outputs stay so even where another
instance's operation writes over their memory, on which the spec is silent (log entries 18 and 20), and the host's actions after an
operation come after every operation of the joint step (log entry 12). -/
def Obligations.InstancesDoNotInteract : Prop :=
  ∀ (sys : List (Bool × State)) (ts : List State), stepTogether sys = .next ts →
    ts.length = sys.length ∧
    ∀ (k : Nat) (starts : Bool) (s : State), sys[k]? = some (starts, s) →
      ∃ t, ts[k]? = some t ∧ (starts = true → step s = .next t) ∧ (starts = false → t = s)

/-- R36, R99 and R105 (the spec's decisions D17, D19, D24): two operations, each of which alone is not refused, are refused together exactly
where one writes memory the other reads or writes; reading the same input does not clash. The model's choices: the reason is
HostDutyBroken, and the joint step ends, and the hosts' actions after it begin, when both have completed (log entry 12); an input the
other operation does not read, and an output of the other instance, keep their values whatever is written over their memory by then
(log entries 18 and 20). -/
def Obligations.SharedOutputsClashSharedInputsDoNot : Prop :=
  ∀ (a b : State) (i j : Instr), a.inp.op = encode i → b.inp.op = encode j → opReady a i = true → opReady b j = true →
    (operationsClash a i b j → stepTogether [(true, a), (true, b)] = .refused .hostDutyBroken) ∧
    (¬ operationsClash a i b j →
      eventsConflict (opMemory j b) a.nextEvents a = false → eventsConflict (opMemory i a) b.nextEvents b = false →
      ∀ ta tb, step a = .next ta → step b = .next tb → stepTogether [(true, a), (true, b)] = .next [ta, tb])

/-- R36 (the spec's decision D17): what the host does at one instance may not touch the memory of an operation another instance runs at the
same time, as TouchingOperationsMemoryIsRefused says of one instance. That memory is judged by address is the model's reading (log entry
11); what a drive writes, which memory an output port covers (log entry 18) and the reason recorded (log entry 12) are its choices. -/
def Obligations.TouchingAnothersMemoryIsRefused : Prop :=
  ∀ (a b : State) (i j : Instr) (turn : Turn) (rest : List Turn) (before after : List HostEvent) (e : HostEvent),
    a.inp.op = encode i → b.inp.op = encode j → opReady a i = true → opReady b j = true →
    a.host = turn :: rest → turn.during = before ++ e :: after →
    touchesForbidden b j (before.foldl eventEffect a) e →
    stepTogether [(true, a), (true, b)] = .refused .hostDutyBroken ∧
    stepTogether [(true, b), (true, a)] = .refused .hostDutyBroken

/-- R99 in a system: an operation's own reason comes before a clash with another instance. That the first refused instance of the list has
its reason recorded is the model's choice (log entry 12): R99 orders the reasons of one operation only. -/
def Obligations.FirstRefusedInstanceIsRecorded : Prop :=
  ∀ (before after : List (Bool × State)) (s : State) (r : Refusal),
    (∀ p ∈ before, p.1 = true → SafeStep p.2) → step s = .refused r →
    stepTogether (before ++ (true, s) :: after) = .refused r
end

