-- ==== Sys2Proof/Laws/Half.lean ====
section
/-! SUPPORT. The fields of patterns and records put together by the model, and the size of the computed magnitudes. -/

namespace Sys2Proof.Machine

/-! ### Fields of a pattern made of a sign and a magnitude -/

theorem f16Sign_append (s : BitVec 1) (m : BitVec 15) : f16Sign (s ++ m) = s := by
  unfold f16Sign
  ext i hi
  simp only [BitVec.getElem_extractLsb', BitVec.getLsbD_append]
  simp [show i = 0 by omega]

theorem f32Sign_append (s : BitVec 1) (m : BitVec 31) : f32Sign (s ++ m) = s := by
  unfold f32Sign
  ext i hi
  simp only [BitVec.getElem_extractLsb', BitVec.getLsbD_append]
  simp [show i = 0 by omega]

theorem toNat_sign_append {w : Nat} (s : BitVec 1) (m : BitVec w) :
    (s ++ m).toNat = s.toNat * 2 ^ w + m.toNat := by
  rw [BitVec.toNat_append, Nat.shiftLeft_eq, mul_comm]
  exact (Nat.two_pow_add_eq_or_of_lt m.isLt s.toNat).symm

theorem f16Exp_append (s : BitVec 1) (m : BitVec 15) : f16Exp (s ++ m) = m.toNat / 1024 := by
  have hm := m.isLt
  have hs := s.isLt
  unfold f16Exp
  rw [BitVec.extractLsb'_toNat, toNat_sign_append, Nat.shiftRight_eq_div_pow]
  omega

theorem f16Frac_append (s : BitVec 1) (m : BitVec 15) : f16Frac (s ++ m) = m.toNat % 1024 := by
  have hm := m.isLt
  have hs := s.isLt
  unfold f16Frac
  rw [BitVec.extractLsb'_toNat, toNat_sign_append, Nat.shiftRight_eq_div_pow]
  omega

theorem f32Exp_append (s : BitVec 1) (m : BitVec 31) : f32Exp (s ++ m) = m.toNat / 2 ^ 23 := by
  have hm := m.isLt
  have hs := s.isLt
  unfold f32Exp
  rw [BitVec.extractLsb'_toNat, toNat_sign_append, Nat.shiftRight_eq_div_pow]
  omega

theorem f32Frac_append (s : BitVec 1) (m : BitVec 31) : f32Frac (s ++ m) = m.toNat % 2 ^ 23 := by
  have hm := m.isLt
  have hs := s.isLt
  unfold f32Frac
  rw [BitVec.extractLsb'_toNat, toNat_sign_append, Nat.shiftRight_eq_div_pow]
  omega

theorem f16Exp_lt (h : F16) : f16Exp h < 32 := BitVec.isLt _

theorem f16Frac_lt (h : F16) : f16Frac h < 1024 := BitVec.isLt _

theorem f32Exp_lt (a : F32) : f32Exp a < 256 := BitVec.isLt _

theorem f32Frac_lt (a : F32) : f32Frac a < 2 ^ 23 := BitVec.isLt _

/-- A binary16 pattern is its sign, exponent and fraction. -/
theorem f16_toNat (h : F16) : h.toNat = (f16Sign h).toNat * 2 ^ 15 + f16Exp h * 2 ^ 10 + f16Frac h := by
  have hh := h.isLt
  simp only [f16Sign, f16Exp, f16Frac, BitVec.extractLsb'_toNat, Nat.shiftRight_eq_div_pow]
  omega

/-- A binary32 pattern is its sign, exponent and fraction. -/
theorem f32_toNat (a : F32) : a.toNat = (f32Sign a).toNat * 2 ^ 31 + f32Exp a * 2 ^ 23 + f32Frac a := by
  have ha := a.isLt
  simp only [f32Sign, f32Exp, f32Frac, BitVec.extractLsb'_toNat, Nat.shiftRight_eq_div_pow]
  omega

theorem roundUp_le (r half t : Nat) : roundUp r half t ≤ 1 := by
  unfold roundUp
  split <;> omega

/-! ### The highest bit -/

/-- `highestBit t k` is the index of the leading 1 bit of a non-zero `t` below `2^(k+1)` (R86). -/
theorem highestBit_spec {t : Nat} (ht : t ≠ 0) :
    ∀ k, t < 2 ^ (k + 1) → highestBit t k ≤ k ∧ 2 ^ highestBit t k ≤ t ∧ t < 2 ^ (highestBit t k + 1)
  | 0, h => by
    simp only [highestBit]
    refine ⟨le_rfl, ?_, h⟩
    simp
    omega
  | k + 1, h => by
    unfold highestBit
    split
    · next hb => exact ⟨le_rfl, Nat.ge_two_pow_of_testBit hb, h⟩
    · next hb =>
      have hlt : t < 2 ^ (k + 1) := by
        by_contra hge
        exact hb (by
          rw [Nat.testBit_eq_decide_div_mod_eq]
          have h1 : t / 2 ^ (k + 1) = 1 := by
            rw [Nat.div_eq_iff (Nat.two_pow_pos _)]
            rw [Nat.pow_succ] at h
            omega
          simp [h1])
      obtain ⟨h1, h2, h3⟩ := highestBit_spec ht k hlt
      exact ⟨by omega, h2, h3⟩

/-! ### Fields of a record put together -/

theorem Rec.toNat_pack (td : BitVec 11) (btn : BitVec 5) (hx hy : F16) :
    (Rec.pack td btn hx hy).toNat = td.toNat + 2 ^ 11 * btn.toNat + 2 ^ 16 * hx.toNat + 2 ^ 32 * hy.toNat := by
  have e : ∀ (n x y : Nat), y < 2 ^ n → x <<< n ||| y = x * 2 ^ n + y := fun n x y hy => by
    rw [Nat.shiftLeft_eq, mul_comm]
    exact (Nat.two_pow_add_eq_or_of_lt hy x).symm
  have h1 := td.isLt
  have h2 := btn.isLt
  have h3 := hx.isLt
  unfold Rec.pack
  rw [BitVec.toNat_append, BitVec.toNat_append, BitVec.toNat_append, e 11 _ _ h1, e 16 _ _ h3, e 16 _ _ (by omega)]
  omega

theorem Rec.td_pack (td : BitVec 11) (btn : BitVec 5) (hx hy : F16) : Rec.td (Rec.pack td btn hx hy) = td := by
  apply BitVec.eq_of_toNat_eq
  have h1 := td.isLt
  simp only [Rec.td, Rec.w0, BitVec.extractLsb'_toNat, Rec.toNat_pack, Nat.shiftRight_eq_div_pow]
  omega

theorem Rec.btn_pack (td : BitVec 11) (btn : BitVec 5) (hx hy : F16) : Rec.btn (Rec.pack td btn hx hy) = btn := by
  apply BitVec.eq_of_toNat_eq
  have h1 := td.isLt
  have h2 := btn.isLt
  simp only [Rec.btn, Rec.w0, BitVec.extractLsb'_toNat, Rec.toNat_pack, Nat.shiftRight_eq_div_pow]
  omega

theorem Rec.hx_pack (td : BitVec 11) (btn : BitVec 5) (hx hy : F16) : Rec.hx (Rec.pack td btn hx hy) = hx := by
  apply BitVec.eq_of_toNat_eq
  have h1 := td.isLt
  have h2 := btn.isLt
  have h3 := hx.isLt
  simp only [Rec.hx, BitVec.extractLsb'_toNat, Rec.toNat_pack, Nat.shiftRight_eq_div_pow]
  omega

theorem Rec.hy_pack (td : BitVec 11) (btn : BitVec 5) (hx hy : F16) : Rec.hy (Rec.pack td btn hx hy) = hy := by
  apply BitVec.eq_of_toNat_eq
  have h1 := td.isLt
  have h2 := btn.isLt
  have h3 := hx.isLt
  have h4 := hy.isLt
  simp only [Rec.hy, BitVec.extractLsb'_toNat, Rec.toNat_pack, Nat.shiftRight_eq_div_pow]
  omega

/-- A record is its four fields (R28, R46). -/
theorem Rec.pack_fields (r : Rec) : Rec.pack (Rec.td r) (Rec.btn r) (Rec.hx r) (Rec.hy r) = r := by
  apply BitVec.eq_of_toNat_eq
  have h := r.isLt
  rw [Rec.toNat_pack]
  simp only [Rec.td, Rec.btn, Rec.w0, Rec.hx, Rec.hy, BitVec.extractLsb'_toNat, Nat.shiftRight_eq_div_pow]
  omega

end Sys2Proof.Machine
end

