-- ==== Sys2Proof/Laws/State.lean ====
section
/-! SUPPORT. One lemma per field of State per update, each true by definition (of a store, by its one case split): no proof unfolds a record update. -/

namespace Sys2Proof.Machine

@[simp] theorem State.complete_params (s : State) (o : OutPorts) :
    (s.complete o).params = s.params := rfl

@[simp] theorem State.complete_inp (s : State) (o : OutPorts) :
    (s.complete o).inp = s.inp := rfl

@[simp] theorem State.complete_place (s : State) (o : OutPorts) :
    (s.complete o).place = s.place := rfl

@[simp] theorem State.complete_out (s : State) (o : OutPorts) :
    (s.complete o).out = o := rfl

@[simp] theorem State.complete_seq (s : State) (o : OutPorts) :
    (s.complete o).seq = s.seq := rfl

@[simp] theorem State.complete_host (s : State) (o : OutPorts) :
    (s.complete o).host = s.host := rfl

@[simp] theorem State.withSeq_params (s : State) (q : Sequencer) :
    (s.withSeq q).params = s.params := rfl

@[simp] theorem State.withSeq_inp (s : State) (q : Sequencer) :
    (s.withSeq q).inp = s.inp := rfl

@[simp] theorem State.withSeq_place (s : State) (q : Sequencer) :
    (s.withSeq q).place = s.place := rfl

@[simp] theorem State.withSeq_out (s : State) (q : Sequencer) :
    (s.withSeq q).out = s.out := rfl

@[simp] theorem State.withSeq_seq (s : State) (q : Sequencer) :
    (s.withSeq q).seq = q := rfl

@[simp] theorem State.withSeq_host (s : State) (q : Sequencer) :
    (s.withSeq q).host = s.host := rfl

@[simp] theorem State.withHost_params (s : State) (h : List Turn) :
    (s.withHost h).params = s.params := rfl

@[simp] theorem State.withHost_inp (s : State) (h : List Turn) :
    (s.withHost h).inp = s.inp := rfl

@[simp] theorem State.withHost_place (s : State) (h : List Turn) :
    (s.withHost h).place = s.place := rfl

@[simp] theorem State.withHost_out (s : State) (h : List Turn) :
    (s.withHost h).out = s.out := rfl

@[simp] theorem State.withHost_seq (s : State) (h : List Turn) :
    (s.withHost h).seq = s.seq := rfl

@[simp] theorem State.withHost_host (s : State) (h : List Turn) :
    (s.withHost h).host = h := rfl

@[simp] theorem State.withInp_params (s : State) (f : InPorts) :
    (s.withInp f).params = s.params := rfl

@[simp] theorem State.withInp_inp (s : State) (f : InPorts) :
    (s.withInp f).inp = f := rfl

@[simp] theorem State.withInp_place (s : State) (f : InPorts) :
    (s.withInp f).place = s.place := rfl

@[simp] theorem State.withInp_out (s : State) (f : InPorts) :
    (s.withInp f).out = s.out := rfl

@[simp] theorem State.withInp_seq (s : State) (f : InPorts) :
    (s.withInp f).seq = s.seq := rfl

@[simp] theorem State.withInp_host (s : State) (f : InPorts) :
    (s.withInp f).host = s.host := rfl

@[simp] theorem State.withPlace_params (s : State) (p : Placement) :
    (s.withPlace p).params = s.params := rfl

@[simp] theorem State.withPlace_inp (s : State) (p : Placement) :
    (s.withPlace p).inp = s.inp := rfl

@[simp] theorem State.withPlace_place (s : State) (p : Placement) :
    (s.withPlace p).place = p := rfl

@[simp] theorem State.withPlace_out (s : State) (p : Placement) :
    (s.withPlace p).out = s.out := rfl

@[simp] theorem State.withPlace_seq (s : State) (p : Placement) :
    (s.withPlace p).seq = s.seq := rfl

@[simp] theorem State.withPlace_host (s : State) (p : Placement) :
    (s.withPlace p).host = s.host := rfl

@[simp] theorem State.assertReset_params (s : State) :
    (s.assertReset).params = s.params := rfl

@[simp] theorem State.assertReset_inp (s : State) :
    (s.assertReset).inp = s.inp := rfl

@[simp] theorem State.assertReset_place (s : State) :
    (s.assertReset).place = s.place := rfl

@[simp] theorem State.assertReset_out (s : State) :
    (s.assertReset).out = OutPorts.undriven := rfl

@[simp] theorem State.assertReset_seq (s : State) :
    (s.assertReset).seq = Sequencer.idle := rfl

@[simp] theorem State.assertReset_host (s : State) :
    (s.assertReset).host = s.host := rfl

@[simp] theorem State.drive_params (s : State) (d : Drive) :
    (s.drive d).params = s.params := rfl

@[simp] theorem State.drive_inp (s : State) (d : Drive) :
    (s.drive d).inp = d.onPorts s.params s.inp := rfl

@[simp] theorem State.drive_place (s : State) (d : Drive) :
    (s.drive d).place = d.onPlace s.place := rfl

@[simp] theorem State.drive_out (s : State) (d : Drive) :
    (s.drive d).out = s.out := rfl

@[simp] theorem State.drive_seq (s : State) (d : Drive) :
    (s.drive d).seq = s.seq := rfl

@[simp] theorem State.drive_host (s : State) (d : Drive) :
    (s.drive d).host = s.host := rfl

@[simp] theorem State.withFetchWord_params (s : State) (nbits w : Nat) :
    (s.withFetchWord nbits w).params = s.params := rfl

@[simp] theorem State.withFetchWord_inp (s : State) (nbits w : Nat) :
    (s.withFetchWord nbits w).inp = { s.inp with op := opOfTableWord w } := rfl

@[simp] theorem State.withFetchWord_place (s : State) (nbits w : Nat) :
    (s.withFetchWord nbits w).place = s.place := rfl

@[simp] theorem State.withFetchWord_out (s : State) (nbits w : Nat) :
    (s.withFetchWord nbits w).out = s.out := rfl

@[simp] theorem State.withFetchWord_seq (s : State) (nbits w : Nat) :
    (s.withFetchWord nbits w).seq = s.seq := rfl

@[simp] theorem State.withFetchWord_host (s : State) (nbits w : Nat) :
    (s.withFetchWord nbits w).host = s.host := rfl

@[simp] theorem State.complete_draws (s : State) (o : OutPorts) :
    (s.complete o).draws = s.draws := rfl

@[simp] theorem State.withSeq_draws (s : State) (q : Sequencer) :
    (s.withSeq q).draws = s.draws := rfl

@[simp] theorem State.withHost_draws (s : State) (h : List Turn) :
    (s.withHost h).draws = s.draws := rfl

@[simp] theorem State.withInp_draws (s : State) (f : InPorts) :
    (s.withInp f).draws = s.draws := rfl

@[simp] theorem State.withPlace_draws (s : State) (p : Placement) :
    (s.withPlace p).draws = s.draws := rfl

@[simp] theorem State.assertReset_draws (s : State) :
    (s.assertReset).draws = s.draws := rfl

@[simp] theorem State.drive_draws (s : State) (d : Drive) :
    (s.drive d).draws = s.draws := rfl

@[simp] theorem State.withFetchWord_draws (s : State) (nbits w : Nat) :
    (s.withFetchWord nbits w).draws = s.draws := rfl

@[simp] theorem State.nextDraw_params (s : State) : s.nextDraw.params = s.params := rfl

@[simp] theorem State.nextDraw_inp (s : State) : s.nextDraw.inp = s.inp := rfl

@[simp] theorem State.nextDraw_place (s : State) : s.nextDraw.place = s.place := rfl

@[simp] theorem State.nextDraw_out (s : State) : s.nextDraw.out = s.out := rfl

@[simp] theorem State.nextDraw_seq (s : State) : s.nextDraw.seq = s.seq := rfl

@[simp] theorem State.nextDraw_host (s : State) : s.nextDraw.host = s.host := rfl

@[simp] theorem State.nextDraw_draws (s : State) : s.nextDraw.draws = s.draws + 1 := rfl

@[simp] theorem State.storeBytes_params (s : State) (base : Nat) (B : Buffer) :
    (s.storeBytes base B).params = s.params := by unfold State.storeBytes; split <;> rfl

@[simp] theorem State.storeBytes_place (s : State) (base : Nat) (B : Buffer) :
    (s.storeBytes base B).place = s.place := by unfold State.storeBytes; split <;> rfl

@[simp] theorem State.storeBytes_out (s : State) (base : Nat) (B : Buffer) :
    (s.storeBytes base B).out = s.out := by unfold State.storeBytes; split <;> rfl

@[simp] theorem State.storeBytes_seq (s : State) (base : Nat) (B : Buffer) :
    (s.storeBytes base B).seq = s.seq := by unfold State.storeBytes; split <;> rfl

@[simp] theorem State.storeBytes_host (s : State) (base : Nat) (B : Buffer) :
    (s.storeBytes base B).host = s.host := by unfold State.storeBytes; split <;> rfl

@[simp] theorem State.storeBytes_draws (s : State) (base : Nat) (B : Buffer) :
    (s.storeBytes base B).draws = s.draws := by unfold State.storeBytes; split <;> rfl

@[simp] theorem State.storeSamples_params (s : State) (r : Region) (S : List Sample) :
    (s.storeSamples r S).params = s.params := by unfold State.storeSamples; split <;> rfl

@[simp] theorem State.storeSamples_place (s : State) (r : Region) (S : List Sample) :
    (s.storeSamples r S).place = s.place := by unfold State.storeSamples; split <;> rfl

@[simp] theorem State.storeSamples_out (s : State) (r : Region) (S : List Sample) :
    (s.storeSamples r S).out = s.out := by unfold State.storeSamples; split <;> rfl

@[simp] theorem State.storeSamples_seq (s : State) (r : Region) (S : List Sample) :
    (s.storeSamples r S).seq = s.seq := by unfold State.storeSamples; split <;> rfl

@[simp] theorem State.storeSamples_host (s : State) (r : Region) (S : List Sample) :
    (s.storeSamples r S).host = s.host := by unfold State.storeSamples; split <;> rfl

@[simp] theorem Sequencer.start_busy (n : Nat) : (Sequencer.start n).busy = true := rfl

@[simp] theorem Sequencer.start_n (n : Nat) : (Sequencer.start n).n = n := rfl

@[simp] theorem Sequencer.start_i (n : Nat) : (Sequencer.start n).i = 0 := rfl

@[simp] theorem Sequencer.advance_busy (q : Sequencer) : q.advance.busy = q.busy := rfl

@[simp] theorem Sequencer.advance_n (q : Sequencer) : q.advance.n = q.n := rfl

@[simp] theorem Sequencer.advance_i (q : Sequencer) : q.advance.i = q.i + 1 := rfl

@[simp] theorem Sequencer.finish_busy (q : Sequencer) : q.finish.busy = false := rfl

@[simp] theorem Sequencer.finish_n (q : Sequencer) : q.finish.n = q.n := rfl

@[simp] theorem Sequencer.finish_i (q : Sequencer) : q.finish.i = q.i := rfl

end Sys2Proof.Machine
end

