-- ==== Sys2Proof/Laws/Memory.lean ====
section
/-! SUPPORT. The laws of byte buffers: reads after writes, the canonical form, and that equal buffers are equal data. -/

namespace Sys2Proof.Machine

@[simp] theorem cellGet_nil (a : Nat) : cellGet a [] = Buffer.fill := rfl

theorem canonFrom_cons {lo hi c : Nat} {x : Byte} {rest : List Host.Cell} :
    canonFrom lo hi ((c, x) :: rest) = true ↔
      lo ≤ c ∧ c < hi ∧ x ≠ Buffer.fill ∧ canonFrom (c + 1) hi rest = true := by
  simp [canonFrom, and_assoc]

theorem canonFrom_mono {lo lo' hi : Nat} (h : lo' ≤ lo) :
    ∀ {cells : List Host.Cell}, canonFrom lo hi cells = true → canonFrom lo' hi cells = true
  | [], _ => rfl
  | (c, x) :: rest, hc => by
    rw [canonFrom_cons] at hc ⊢
    exact ⟨h.trans hc.1, hc.2⟩

/-- An offset below every listed one reads as the fill. -/
theorem cellGet_of_lt {a lo hi : Nat} (h : a < lo) :
    ∀ {cells : List Host.Cell}, canonFrom lo hi cells = true → cellGet a cells = Buffer.fill
  | [], _ => rfl
  | (c, x) :: rest, hc => by
    rw [canonFrom_cons] at hc
    have hne : a ≠ c := by omega
    rw [cellGet, if_neg hne]
    exact cellGet_of_lt (by omega) hc.2.2.2

theorem cellGet_cellSet_ne {a a' : Nat} (b : Byte) (h : a' ≠ a) :
    ∀ cells : List Host.Cell, cellGet a' (cellSet a b cells) = cellGet a' cells
  | [] => by
    by_cases hb : b = Buffer.fill <;> simp [cellSet, cellGet, hb, h]
  | (c, x) :: rest => by
    unfold cellSet
    split
    · split <;> simp [cellGet, h]
    · split
      · next hac => subst hac; split <;> simp [cellGet, h]
      · simp [cellGet, cellGet_cellSet_ne b h rest]

theorem cellGet_cellSet_same {a lo hi : Nat} (b : Byte) :
    ∀ {cells : List Host.Cell}, canonFrom lo hi cells = true → cellGet a (cellSet a b cells) = b
  | [], _ => by
    by_cases hb : b = Buffer.fill <;> simp [cellSet, cellGet, hb]
  | (c, x) :: rest, hc => by
    have hr := (canonFrom_cons.mp hc).2.2.2
    unfold cellSet
    split
    · next hlt =>
      split
      · next hb =>
        rw [cellGet, if_neg (by omega), hb]
        exact cellGet_of_lt (by omega) hr
      · simp [cellGet]
    · split
      · next hac =>
        subst hac
        split
        · next hb => rw [hb]; exact cellGet_of_lt (by omega) hr
        · simp [cellGet]
      · next hne => rw [cellGet, if_neg hne]; exact cellGet_cellSet_same b hr

/-- A byte write keeps the canonical form. -/
theorem canonFrom_cellSet {a hi : Nat} (b : Byte) (hhi : a < hi) :
    ∀ {lo : Nat} {cells : List Host.Cell}, lo ≤ a → canonFrom lo hi cells = true →
      canonFrom lo hi (cellSet a b cells) = true
  | lo, [], hlo, _ => by
    by_cases hb : b = Buffer.fill <;> simp [cellSet, canonFrom, hb, hlo, hhi]
  | lo, (c, x) :: rest, hlo, hc => by
    have hc' := canonFrom_cons.mp hc
    unfold cellSet
    split
    · next hlt =>
      split
      · exact hc
      · next hb =>
        exact canonFrom_cons.mpr ⟨hlo, hhi, hb, canonFrom_cons.mpr ⟨hlt, hc'.2⟩⟩
    · split
      · next hac =>
        subst hac
        split
        · exact canonFrom_mono (by omega) hc'.2.2.2
        · next hb => exact canonFrom_cons.mpr ⟨hlo, hhi, hb, hc'.2.2.2⟩
      · next h1 h2 =>
        exact canonFrom_cons.mpr
          ⟨hc'.1, hc'.2.1, hc'.2.2.1, canonFrom_cellSet b hhi (by omega) hc'.2.2.2⟩

/-- Canonical cells that read alike are the same cells. -/
theorem canonFrom_ext {lo hi : Nat} :
    ∀ {l m : List Host.Cell}, canonFrom lo hi l = true → canonFrom lo hi m = true →
      (∀ a, cellGet a l = cellGet a m) → l = m
  | [], [], _, _, _ => rfl
  | [], (c, x) :: m, _, hm, h => by
    have := h c
    rw [cellGet, cellGet, if_pos rfl] at this
    exact absurd this.symm (canonFrom_cons.mp hm).2.2.1
  | (c, x) :: l, [], hl, _, h => by
    have := h c
    rw [cellGet, cellGet, if_pos rfl] at this
    exact absurd this (canonFrom_cons.mp hl).2.2.1
  | (c, x) :: l, (d, y) :: m, hl, hm, h => by
    have hl' := canonFrom_cons.mp hl
    have hm' := canonFrom_cons.mp hm
    have hcd : c = d := by
      rcases Nat.lt_trichotomy c d with hlt | heq | hgt
      · have := h c
        rw [cellGet, if_pos rfl, cellGet, if_neg (by omega), cellGet_of_lt (by omega) hm'.2.2.2] at this
        exact absurd this hl'.2.2.1
      · exact heq
      · have := h d
        rw [cellGet, if_neg (by omega), cellGet_of_lt (by omega) hl'.2.2.2, cellGet, if_pos rfl] at this
        exact absurd this.symm hm'.2.2.1
    subst hcd
    have hxy : x = y := by simpa [cellGet] using h c
    subst hxy
    have htail : l = m := by
      refine canonFrom_ext hl'.2.2.2 hm'.2.2.2 (fun a => ?_)
      by_cases ha : a = c
      · subst ha
        rw [cellGet_of_lt (by omega) hl'.2.2.2, cellGet_of_lt (by omega) hm'.2.2.2]
      · simpa [cellGet, ha] using h a
    rw [htail]

/-- Equal buffers are equal data: same length and same bytes, same buffer. -/
theorem Buffer.ext_of_wf {B C : Buffer} (hB : B.wf = true) (hC : C.wf = true) (hlen : B.len = C.len)
    (h : ∀ off, B.byte off = C.byte off) : B = C := by
  cases B; cases C
  cases hlen
  congr
  exact canonFrom_ext hB hC h

/-- The bytes of a `cellsWrite`: those of the value inside the window, the old ones outside. -/
theorem cellsWrite_spec {hi : Nat} :
    ∀ (n off v : Nat) {cells : List Host.Cell}, off + n ≤ hi → canonFrom 0 hi cells = true →
      canonFrom 0 hi (cellsWrite off n v cells) = true ∧
      ∀ a, cellGet a (cellsWrite off n v cells) =
        if off ≤ a ∧ a < off + n then BitVec.ofNat 8 (v / 256 ^ (a - off)) else cellGet a cells
  | 0, off, v, cells, _, hc => ⟨hc, fun a => by rw [if_neg (by omega)]; rfl⟩
  | n + 1, off, v, cells, hle, hc => by
    have hset := canonFrom_cellSet (a := off) (BitVec.ofNat 8 v) (by omega) (Nat.zero_le off) hc
    obtain ⟨hw, hg⟩ := cellsWrite_spec n (off + 1) (v / 256) (by omega) hset
    refine ⟨hw, fun a => ?_⟩
    rw [cellsWrite, hg a]
    by_cases h1 : off + 1 ≤ a ∧ a < off + 1 + n
    · rw [if_pos h1, if_pos (by omega), Nat.div_div_eq_div_mul, ← Nat.pow_succ',
        show (a - (off + 1)).succ = a - off by omega]
    · rw [if_neg h1]
      by_cases h2 : a = off
      · subst h2
        rw [cellGet_cellSet_same _ hc, if_pos (by omega)]
        simp
      · rw [cellGet_cellSet_ne _ h2, if_neg (by omega)]

@[simp] theorem Buffer.memWrite_len (B : Buffer) (off n v : Nat) : (B.memWrite off n v).len = B.len := by
  unfold Buffer.memWrite; split <;> rfl

/-- MemWrite keeps the canonical form. -/
theorem Buffer.memWrite_wf {B : Buffer} (h : B.wf = true) (off n v : Nat) : (B.memWrite off n v).wf = true := by
  unfold Buffer.memWrite
  split
  · next hle => exact (cellsWrite_spec n off v hle h).1
  · exact h

/-- `B[off+k] <- v[8k+7:8k]` (R10), and no other byte changes. -/
theorem Buffer.byte_memWrite {B : Buffer} (h : B.wf = true) {off n : Nat} (hle : off + n ≤ B.len) (v a : Nat) :
    (B.memWrite off n v).byte a =
      if off ≤ a ∧ a < off + n then BitVec.ofNat 8 (v / 256 ^ (a - off)) else B.byte a := by
  rw [Buffer.memWrite, if_pos hle]
  exact (cellsWrite_spec n off v hle h).2 a

theorem Buffer.fresh_wf (n : Nat) : (Buffer.fresh n).wf = true := rfl

@[simp] theorem Buffer.fresh_len (n : Nat) : (Buffer.fresh n).len = n := rfl

theorem canonFrom_cellsOf {hi : Nat} :
    ∀ (bs : List Byte) (off : Nat), off + bs.length ≤ hi → canonFrom off hi (cellsOf off bs) = true
  | [], _, _ => rfl
  | b :: rest, off, h => by
    simp only [List.length_cons] at h
    unfold cellsOf
    split
    · exact canonFrom_mono (by omega) (canonFrom_cellsOf rest (off + 1) (by omega))
    · next hb => exact canonFrom_cons.mpr ⟨le_rfl, by omega, hb, canonFrom_cellsOf rest (off + 1) (by omega)⟩

theorem Buffer.ofBytes_wf (bs : List Byte) : (Buffer.ofBytes bs).wf = true :=
  canonFrom_mono (Nat.zero_le _) (canonFrom_cellsOf bs 0 (by simp [Buffer.ofBytes]))

@[simp] theorem Buffer.ofBytes_len (bs : List Byte) : (Buffer.ofBytes bs).len = bs.length := rfl

theorem cellGet_cellsOf :
    ∀ (bs : List Byte) (off k : Nat), cellGet (off + k) (cellsOf off bs) = bs.getD k Buffer.fill
  | [], _, _ => by simp [cellsOf]
  | b :: rest, off, 0 => by
    have h0 : cellGet off (cellsOf (off + 1) rest) = Buffer.fill :=
      cellGet_of_lt (Nat.lt_succ_self off) (canonFrom_cellsOf rest (off + 1) le_rfl)
    by_cases hb : b = Buffer.fill <;> simp [cellsOf, cellGet, hb, h0]
  | b :: rest, off, k + 1 => by
    have ih := cellGet_cellsOf rest (off + 1) k
    rw [show off + 1 + k = off + (k + 1) by omega] at ih
    by_cases hb : b = Buffer.fill <;> simp [cellsOf, cellGet, hb, ih]

/-- Byte `k` of a buffer made of bytes is the `k`-th of them. -/
theorem Buffer.byte_ofBytes (bs : List Byte) (k : Nat) : (Buffer.ofBytes bs).byte k = bs.getD k Buffer.fill := by
  simpa [Buffer.byte, Buffer.ofBytes] using cellGet_cellsOf bs 0 k

end Sys2Proof.Machine
end

