-- ==== Sys2Proof/Laws/Ops.lean ====
section
/-! SUPPORT. One lemma per shared operation that says once everything it can do: the stream guard, the two stream loops, the
meanings, the host's turn and the step. -/

namespace Sys2Proof.Machine

/-! ### What the output ports read as -/

@[simp] theorem OutPorts.value_undriven (p : OutPort) : OutPorts.undriven.value p = none := by
  cases p <;> rfl

@[simp] theorem OutPorts.ofRecord_recOut (r : Rec) : (OutPorts.ofRecord r).recOut = some r := rfl

@[simp] theorem OutPorts.ofSample_tdOut (d : Sample) : (OutPorts.ofSample d).tdOut = some d.td := rfl

@[simp] theorem OutPorts.ofSample_bsOut (d : Sample) : (OutPorts.ofSample d).bsOut = some d.bs := rfl

@[simp] theorem OutPorts.ofSample_xOut (d : Sample) : (OutPorts.ofSample d).xOut = some d.x := rfl

@[simp] theorem OutPorts.ofSample_yOut (d : Sample) : (OutPorts.ofSample d).yOut = some d.y := rfl

@[simp] theorem OutPorts.ofHalf_hOut (h : F16) : (OutPorts.ofHalf h).hOut = some h := rfl

@[simp] theorem OutPorts.ofFull_fOut (f : F32) : (OutPorts.ofFull f).fOut = some f := rfl

@[simp] theorem OutPorts.ofBuffer_obuf (B : Buffer) : (OutPorts.ofBuffer B).obuf = some B := rfl

@[simp] theorem OutPorts.ofSamples_sout (l : List Sample) : (OutPorts.ofSamples l).sout = some l := rfl

/-! ### Results stored over inputs (R36) -/

@[simp] theorem Buffer.overlay_len (B : Buffer) (base srcAt : Nat) (src : Buffer) : (B.overlay base srcAt src).len = B.len := by
  simp [Buffer.overlay]

theorem Buffer.overlay_wf (B : Buffer) (base srcAt : Nat) (src : Buffer) : (B.overlay base srcAt src).wf = true :=
  Buffer.ofBytes_wf _

/-- An overlay read by address. -/
theorem Buffer.byte_overlay (B : Buffer) (base srcAt : Nat) (src : Buffer) {off : Nat} (h : off < B.len) :
    (B.overlay base srcAt src).byte off =
      if srcAt ≤ base + off ∧ base + off < srcAt + src.len then src.byte (base + off - srcAt) else B.byte off := by
  rw [Buffer.overlay, Buffer.byte_ofBytes]
  simp [List.getD, h]

/-- Everything a store of bytes can do to the inputs: nothing but `ibuf`, and that by address, its length kept. -/
theorem State.storeBytes_spec (s : State) (base : Nat) (B : Buffer) :
    (s.storeBytes base B).inp = { s.inp with ibuf := (s.storeBytes base B).inp.ibuf } ∧
    (s.storeBytes base B).inp.ibuf.len = s.inp.ibuf.len ∧
    (s.inp.ibuf.wf = true → (s.storeBytes base B).inp.ibuf.wf = true) ∧
    (s.ibufRegion.overlaps { base := base, size := B.len } = false → s.storeBytes base B = s) ∧
    ∀ off, off < s.inp.ibuf.len → (s.storeBytes base B).inp.ibuf.byte off =
      if base ≤ s.place.ibufAt + off ∧ s.place.ibufAt + off < base + B.len
      then B.byte (s.place.ibufAt + off - base) else s.inp.ibuf.byte off := by
  unfold State.storeBytes
  split
  · next h =>
    exact ⟨rfl, Buffer.overlay_len _ _ _ _, fun _ => Buffer.overlay_wf _ _ _ _, fun hf => absurd (h.symm.trans hf) (by decide),
      fun off ho => Buffer.byte_overlay _ _ _ _ ho⟩
  · next h =>
    refine ⟨rfl, rfl, id, fun _ => rfl, fun off ho => ?_⟩
    have hd := of_decide_eq_false (Bool.eq_false_iff.mpr h)
    simp only [State.ibufRegion] at hd
    exact (if_neg (by omega)).symm

/-- Everything a store of samples can do to the inputs: nothing but `sin`, its length kept, its fields within the port widths. -/
theorem State.storeSamples_spec (s : State) (r : Region) (S : List Sample) :
    (s.storeSamples r S).inp = { s.inp with sin := (s.storeSamples r S).inp.sin } ∧
    (s.storeSamples r S).inp.sin.length = s.inp.sin.length ∧
    (s.inp.sin.all (Sample.fits s.params) = true → (s.storeSamples r S).inp.sin.all (Sample.fits s.params) = true) ∧
    (S = [] ∨ s.place.sinAt.overlaps r = false → s.storeSamples r S = s) := by
  unfold State.storeSamples
  split
  · next h =>
    refine ⟨rfl, by simp, fun _ => ?_, ?_⟩
    · simp [State.freeSample, Sample.clip, Sample.fits, Nat.mod_lt]
    · rintro (rfl | hf)
      · simp at h
      · simp [hf] at h
  · exact ⟨rfl, rfl, id, fun _ => rfl⟩

/-! ### The stream guard -/

theorem streamRefusal_eq_none_iff (s : State) (a b : Region) (n : Nat) :
    streamRefusal s a b n = none ↔ a.overlaps b = false ∧ exceedsMax s.params n = false := by
  unfold streamRefusal
  split
  · next h => simp [h]
  · next h => split <;> simp_all

theorem streamRefusal_eq_some_iff (s : State) (a b : Region) (n : Nat) (r : Refusal) :
    streamRefusal s a b n = some r ↔
      (a.overlaps b = true ∧ r = .bufferOverlap) ∨
      (a.overlaps b = false ∧ exceedsMax s.params n = true ∧ r = .streamTooLong) := by
  unfold streamRefusal
  cases a.overlaps b <;> cases exceedsMax s.params n <;> simp [@eq_comm _ r]

/-! ### The stream loops -/

/-- What the ENCS loop leaves: the sequencer done at `N`, the buffer's length and canonical form kept, the records written one
after the other from index `q.i`, and every other byte as before. -/
theorem encodeLoop_spec :
    ∀ (l : List Sample) (q : Sequencer) {B : Buffer}, B.wf = true → 6 * (q.i + l.length) ≤ B.len →
      (encodeLoop l q B).1 = { q with busy := false, i := q.i + l.length } ∧
      (encodeLoop l q B).2.len = B.len ∧ (encodeLoop l q B).2.wf = true ∧
      (∀ a, a < 6 * q.i ∨ 6 * (q.i + l.length) ≤ a →
        (encodeLoop l q B).2.byte a = B.byte a) ∧
      ∀ j k, (hj : j < l.length) → k < 6 →
        (encodeLoop l q B).2.byte (6 * (q.i + j) + k) =
          BitVec.ofNat 8 ((encRec l[j]).toNat / 256 ^ k)
  | [], q, B, hw, _ => ⟨rfl, rfl, hw, fun _ _ => rfl, fun j k hj _ => absurd hj (Nat.not_lt_zero j)⟩
  | s :: rest, q, B, hw, hle => by
    have hle0 := hle
    simp only [List.length_cons] at hle
    have hin : 6 * q.i + 6 ≤ B.len := by omega
    obtain ⟨h1, h2, h3, h4, h5⟩ := encodeLoop_spec rest q.advance
      (Buffer.memWrite_wf hw (6 * q.i) 6 (encRec s).toNat)
      (by simp only [Buffer.memWrite_len, Sequencer.advance_i]; omega)
    have hb := Buffer.byte_memWrite hw hin (encRec s).toNat
    simp only [Sequencer.advance_i] at h4 h5 hb
    refine ⟨?_, by rw [encodeLoop, h2, Buffer.memWrite_len], by rw [encodeLoop]; exact h3, ?_, ?_⟩
    · rw [encodeLoop, h1]
      simp only [Sequencer.advance, List.length_cons, Sequencer.mk.injEq, true_and]
      omega
    · intro a ha
      simp only [List.length_cons] at ha
      rw [encodeLoop, h4 a (by omega), hb a, if_neg (by omega)]
    · rintro (_ | j) k hj hk
      · simp only [Nat.add_zero, List.getElem_cons_zero]
        rw [encodeLoop, h4 _ (by omega), hb, if_pos (by omega), Nat.add_sub_cancel_left]
      · simp only [List.length_cons] at hj
        have := h5 j k (by omega) hk
        simp only [List.getElem_cons_succ]
        rw [encodeLoop, show 6 * (q.i + (j + 1)) + k = 6 * (q.i + 1 + j) + k by omega]
        exact this

/-- What the DECS loop leaves: the sequencer done, and one decoded sample appended per record in ascending index. -/
theorem decodeLoop_spec (p : Params) (B : Buffer) :
    ∀ (left : Nat) (q : Sequencer) (S : List Sample),
      decodeLoop p B left q S =
        ({ q with busy := false, i := q.i + left },
          S ++ (List.range left).map (fun j => decRec p (B.recordAt (q.i + j))))
  | 0, q, S => by simp [decodeLoop, Sequencer.finish]
  | left + 1, q, S => by
    rw [decodeLoop, decodeLoop_spec p B left q.advance, List.range_succ_eq_map]
    simp [Sequencer.advance, Nat.add_comm, Nat.add_left_comm]

theorem decodeStream_spec (p : Params) (B : Buffer) :
    decodeStream p B =
      ({ busy := false, n := B.recordCount, i := B.recordCount },
        (List.range B.recordCount).map (fun j => decRec p (B.recordAt j))) := by
  simp [decodeStream, decodeLoop_spec, Sequencer.start]

/-! ### The meanings -/

theorem exec_enc (s : State) : exec .enc s = .next (s.complete (OutPorts.ofRecord (encRec s.sampleIn))) := rfl

theorem exec_dec (s : State) :
    exec .dec s = .next (s.complete (OutPorts.ofSample (decRec s.params s.inp.recIn))) := rfl

theorem exec_cvtHS (s : State) :
    exec .cvtHS s = if s.params.hasCvt then .next (s.complete (OutPorts.ofHalf (f32ToF16 s.inp.fIn)))
      else .refused .cvtAbsent := rfl

theorem exec_cvtSH (s : State) :
    exec .cvtSH s = if s.params.hasCvt then .next (s.complete (OutPorts.ofFull (f16ToF32 s.inp.hIn)))
      else .refused .cvtAbsent := rfl

theorem exec_encs (s : State) :
    exec .encs s = match streamRefusal s s.place.sinAt s.obufRegion s.inp.sin.length with
      | some r => .refused r
      | none => .next (((s.storeBytes s.place.obufAt (encodeStream s.inp.sin).2).withSeq (encodeStream s.inp.sin).1).complete
          (OutPorts.ofBuffer (encodeStream s.inp.sin).2)) := rfl

theorem exec_decs (s : State) :
    exec .decs s = match streamRefusal s s.ibufRegion s.place.soutAt s.inp.ibuf.recordCount with
      | some r => .refused r
      | none => .next (((s.storeSamples s.place.soutAt (decodeStream s.params s.inp.ibuf).2).withSeq
            (decodeStream s.params s.inp.ibuf).1).complete
          (OutPorts.ofSamples (decodeStream s.params s.inp.ibuf).2)) := rfl

theorem exec_encs_of_ready {s : State} (h1 : s.place.sinAt.overlaps s.obufRegion = false)
    (h2 : exceedsMax s.params s.inp.sin.length = false) :
    exec .encs s = .next (((s.storeBytes s.place.obufAt (encodeStream s.inp.sin).2).withSeq
      (encodeStream s.inp.sin).1).complete (OutPorts.ofBuffer (encodeStream s.inp.sin).2)) := by
  rw [exec_encs, (streamRefusal_eq_none_iff _ _ _ _).mpr ⟨h1, h2⟩]

theorem exec_decs_of_ready {s : State} (h1 : s.ibufRegion.overlaps s.place.soutAt = false)
    (h2 : exceedsMax s.params s.inp.ibuf.recordCount = false) :
    exec .decs s = .next (((s.storeSamples s.place.soutAt (decodeStream s.params s.inp.ibuf).2).withSeq
      (decodeStream s.params s.inp.ibuf).1).complete (OutPorts.ofSamples (decodeStream s.params s.inp.ibuf).2)) := by
  rw [exec_decs, (streamRefusal_eq_none_iff _ _ _ _).mpr ⟨h1, h2⟩]

/-- The output ports after operation `i` on the inputs of `s`. -/
def resultPorts (s : State) : Instr → OutPorts
  | .enc => OutPorts.ofRecord (encRec s.sampleIn)
  | .dec => OutPorts.ofSample (decRec s.params s.inp.recIn)
  | .cvtHS => OutPorts.ofHalf (f32ToF16 s.inp.fIn)
  | .cvtSH => OutPorts.ofFull (f16ToF32 s.inp.hIn)
  | .encs => OutPorts.ofBuffer (encodeStream s.inp.sin).2
  | .decs => OutPorts.ofSamples (decodeStream s.params s.inp.ibuf).2

/-- The sequencer after operation `i` on the inputs of `s`. -/
def resultSeq (s : State) : Instr → Sequencer
  | .enc => s.seq
  | .dec => s.seq
  | .cvtHS => s.seq
  | .cvtSH => s.seq
  | .encs => (encodeStream s.inp.sin).1
  | .decs => (decodeStream s.params s.inp.ibuf).1

/-- What operation `i` leaves in host memory, where an input lies there (R36): only the stream operations leave anything. -/
def resultStore (s : State) : Instr → State
  | .enc => s
  | .dec => s
  | .cvtHS => s
  | .cvtSH => s
  | .encs => s.storeBytes s.place.obufAt (encodeStream s.inp.sin).2
  | .decs => s.storeSamples s.place.soutAt (decodeStream s.params s.inp.ibuf).2

@[simp] theorem resultStore_params (s : State) (i : Instr) : (resultStore s i).params = s.params := by cases i <;> simp [resultStore]

@[simp] theorem resultStore_place (s : State) (i : Instr) : (resultStore s i).place = s.place := by cases i <;> simp [resultStore]

@[simp] theorem resultStore_out (s : State) (i : Instr) : (resultStore s i).out = s.out := by cases i <;> simp [resultStore]

@[simp] theorem resultStore_seq (s : State) (i : Instr) : (resultStore s i).seq = s.seq := by cases i <;> simp [resultStore]

@[simp] theorem resultStore_host (s : State) (i : Instr) : (resultStore s i).host = s.host := by cases i <;> simp [resultStore]

/-- Everything an operation that completes can do: it replaces the output ports, a stream operation the sequencer and an input that
lies where its result is stored. -/
theorem exec_next {i : Instr} {s t : State} (h : exec i s = .next t) :
    t = ((resultStore s i).withSeq (resultSeq s i)).complete (resultPorts s i) := by
  cases i with
  | enc => rw [exec_enc] at h; cases h; rfl
  | dec => rw [exec_dec] at h; cases h; rfl
  | cvtHS => rw [exec_cvtHS] at h; split at h <;> cases h; rfl
  | cvtSH => rw [exec_cvtSH] at h; split at h <;> cases h; rfl
  | encs => rw [exec_encs] at h; split at h <;> cases h; rfl
  | decs => rw [exec_decs] at h; split at h <;> cases h; rfl

/-- Exactly the ports R16 names for the operation have a value afterwards. -/
theorem resultPorts_value_isSome (s : State) (i : Instr) (p : OutPort) :
    ((resultPorts s i).value p).isSome = opDrives i p := by
  cases i <;> cases p <;> rfl

/-! ### The host's turn and the step -/

/-- What holds of the state the events start from, and is kept by every drive, holds after them. -/
theorem duringOp_invariant {P : State → Prop} (hd : ∀ s d, P s → P (s.drive d)) (i : Instr) :
    ∀ {es : List HostEvent} {s t : State}, duringOp i es s = some t → P s → P t
  | [], _, _, h, hs => by cases h; exact hs
  | e :: rest, s, t, h, hs => by
    rw [duringOp] at h
    split at h
    · cases h
    · refine duringOp_invariant hd i h ?_
      cases e <;> first | exact hd _ _ hs | exact hs

theorem afterOp_invariant {P : State → Prop} (hd : ∀ s d, P s → P (s.drive d)) (hr : ∀ s, P s → P s.assertReset) :
    ∀ {as : List HostAction} {s : State}, P s → P (afterOp as s)
  | [], _, hs => hs
  | a :: rest, s, hs => by
    refine afterOp_invariant (as := rest) hd hr ?_
    cases a with
    | drive d => exact hd s d hs
    | reset => exact hr s hs

theorem hostTurn_of_idle {i : Instr} {s : State} (h : s.host = []) : hostTurn i s = .next s := by
  simp only [hostTurn, h]

/-- The host's turn either changes nothing, or runs the events and then the actions of the next turn. -/
theorem hostTurn_next_cases {i : Instr} {s u : State} (h : hostTurn i s = .next u) :
    (s.host = [] ∧ u = s) ∨
    ∃ t rest v, s.host = t :: rest ∧ duringOp i t.during (s.withHost rest) = some v ∧ u = afterOp t.after v := by
  unfold hostTurn at h
  split at h
  · next hh => cases h; exact .inl ⟨hh, rfl⟩
  · next t rest hh =>
    split at h
    · cases h
    · next v hv => cases h; exact .inr ⟨t, rest, v, hh, hv, rfl⟩

/-- Everything a step that completes can do: the code on `op` is an operation, it completes, nothing was in progress, and the
host takes its turn. -/
theorem step_next_cases {s u : State} (h : step s = .next u) :
    ∃ i t, s.inp.op = encode i ∧ exec i s = .next t ∧ s.seq.busy = false ∧ hostTurn i t = .next u := by
  unfold step at h
  split at h
  · cases h
  · next i hi =>
    split at h
    · next t ht =>
      unfold settleHost at h
      split at h
      · cases h
      · next hb => exact ⟨i, t, (decode_eq_ok_iff _ _).mp hi, ht, by simpa using hb, h⟩
    · cases h
    · cases h

/-- With no host turn planned and nothing in progress, a step is the operation selected. -/
theorem step_of_idle {s : State} {i : Instr} (hop : s.inp.op = encode i) (hb : s.seq.busy = false) (hh : s.host = []) :
    step s = exec i s := by
  rw [step, hop, decode_encode]
  dsimp only
  cases he : exec i s with
  | next t =>
    have ht : t.host = [] := by rw [exec_next he]; simpa using hh
    simp only [settleHost, hb, Bool.false_eq_true, if_false, hostTurn_of_idle ht]
  | fault f => rfl
  | refused r => rfl

end Sys2Proof.Machine
end

