-- ==== Sys2Proof/Laws/PerInstr.lean ====
section
/-! SUPPORT. The statement made per constructor of Instr: its operation select has 3 bits of its own and decodes back to it. -/

namespace Sys2Proof.Laws

/-- The code of `i` decodes to `i`, and to nothing else, both on the port and from a table word (R42, R43). -/
def SelectRoundTrip.Statement (i : Instr) : Prop :=
  decode (encode i) = .ok i ∧ decodeTableWord 8 (encode i).toNat = some i ∧ ∀ j, encode j = encode i → j = i

theorem SelectRoundTrip.enc : SelectRoundTrip.Statement .enc :=
  ⟨rfl, rfl, fun j => by cases j <;> decide⟩

theorem SelectRoundTrip.dec : SelectRoundTrip.Statement .dec :=
  ⟨rfl, rfl, fun j => by cases j <;> decide⟩

theorem SelectRoundTrip.cvtHS : SelectRoundTrip.Statement .cvtHS :=
  ⟨rfl, rfl, fun j => by cases j <;> decide⟩

theorem SelectRoundTrip.cvtSH : SelectRoundTrip.Statement .cvtSH :=
  ⟨rfl, rfl, fun j => by cases j <;> decide⟩

theorem SelectRoundTrip.encs : SelectRoundTrip.Statement .encs :=
  ⟨rfl, rfl, fun j => by cases j <;> decide⟩

theorem SelectRoundTrip.decs : SelectRoundTrip.Statement .decs :=
  ⟨rfl, rfl, fun j => by cases j <;> decide⟩

end Sys2Proof.Laws
end

