-- ==== Sys2Proof/Laws/Streams.lean ====
section
/-! SUPPORT. What the whole-stream functions leave, the overlap and length checks in the spec's own terms, and records as bytes. -/

namespace Sys2Proof.Machine

/-- Two regions overlap exactly when some address lies in both (R37). -/
theorem overlaps_iff (a b : Region) :
    a.overlaps b = true ↔ ∃ x, (a.base ≤ x ∧ x < a.base + a.size) ∧ b.base ≤ x ∧ x < b.base + b.size := by
  simp only [Region.overlaps, decide_eq_true_eq]
  constructor
  · intro h
    exact ⟨max a.base b.base, by omega⟩
  · rintro ⟨x, h⟩
    omega

/-- `N > MAX_N` with a bounded `MAX_N` (R66, R75). -/
theorem exceedsMax_iff (p : Params) (n : Nat) : exceedsMax p n = true ↔ ∃ k, p.maxN = some k ∧ k < n := by
  unfold exceedsMax
  split <;> simp_all

/-- ENCS's whole function: sequencer done, `6*N` bytes, canonical, each record in its place (R63). -/
theorem encodeStream_spec (l : List Sample) :
    (encodeStream l).1 = { busy := false, n := l.length, i := l.length } ∧
    (encodeStream l).2.len = 6 * l.length ∧ (encodeStream l).2.wf = true ∧
    ∀ j k, (hj : j < l.length) → k < 6 →
      (encodeStream l).2.byte (6 * j + k) = BitVec.ofNat 8 ((encRec l[j]).toNat / 256 ^ k) := by
  obtain ⟨h1, h2, h3, _, h5⟩ := encodeLoop_spec l (Sequencer.start l.length)
    (B := Buffer.fresh (6 * l.length)) rfl (by simp)
  refine ⟨by simpa [encodeStream, Sequencer.start] using h1, h2, h3, fun j k hj hk => ?_⟩
  simpa [encodeStream] using h5 j k hj hk

/-- Byte `k` of a record by division is its byte by bit lane (R10, R28). -/
theorem Rec.byte_eq (r : Rec) (k : Nat) : BitVec.ofNat 8 (r.toNat / 256 ^ k) = Rec.byte r k := by
  apply BitVec.eq_of_toNat_eq
  rw [show (256 : Nat) = 2 ^ 8 by rfl, ← Nat.pow_mul]
  simp [Rec.byte, Nat.shiftRight_eq_div_pow]

/-- The number six bytes make in a record (R28). -/
theorem Rec.toNat_ofBytes (b0 b1 b2 b3 b4 b5 : Byte) :
    (Rec.ofBytes b0 b1 b2 b3 b4 b5).toNat =
      b0.toNat + 256 * (b1.toNat + 256 * (b2.toNat + 256 * (b3.toNat + 256 * (b4.toNat + 256 * b5.toNat)))) := by
  have e : ∀ x y : Nat, y < 256 → x <<< 8 ||| y = x * 256 + y := fun x y hy => by
    rw [Nat.shiftLeft_eq, mul_comm]
    exact (Nat.two_pow_add_eq_or_of_lt (i := 8) hy x).symm
  have h0 := b0.isLt; have h1 := b1.isLt; have h2 := b2.isLt; have h3 := b3.isLt; have h4 := b4.isLt
  simp only [Rec.ofBytes, BitVec.toNat_append]
  rw [e _ _ (by omega), e _ _ (by omega), e _ _ (by omega), e _ _ (by omega), e _ _ (by omega)]
  omega

/-- The record at index `i` is made of the six bytes at `6*i` (R26, R28). -/
theorem Buffer.recordAt_eq {B : Buffer} {i : Nat} (h : 6 * i + 6 ≤ B.len) :
    B.recordAt i = Rec.ofBytes (B.byte (6 * i)) (B.byte (6 * i + 1)) (B.byte (6 * i + 2))
      (B.byte (6 * i + 3)) (B.byte (6 * i + 4)) (B.byte (6 * i + 5)) := by
  apply BitVec.eq_of_toNat_eq
  rw [Rec.toNat_ofBytes]
  have h0 := (B.byte (6 * i)).isLt; have h1 := (B.byte (6 * i + 1)).isLt
  have h2 := (B.byte (6 * i + 2)).isLt; have h3 := (B.byte (6 * i + 3)).isLt
  have h4 := (B.byte (6 * i + 4)).isLt; have h5 := (B.byte (6 * i + 5)).isLt
  simp only [Buffer.recordAt, Buffer.memRead, if_pos h, Option.getD_some, leValue, BitVec.toNat_ofNat,
    Nat.add_assoc, Nat.reduceAdd] at *
  omega

/-- A record written at its place is read back (R10, R26). -/
theorem recordAt_encodeStream (l : List Sample) {i : Nat} (hi : i < l.length) :
    (encodeStream l).2.recordAt i = encRec l[i] := by
  obtain ⟨_, hlen, _, hb⟩ := encodeStream_spec l
  rw [Buffer.recordAt_eq (by omega)]
  have hb' : ∀ k, k < 6 → (encodeStream l).2.byte (6 * i + k) = BitVec.ofNat 8 ((encRec l[i]).toNat / 256 ^ k) :=
    fun k hk => hb i k hi hk
  have h0 := hb' 0 (by omega)
  rw [Nat.add_zero] at h0
  apply BitVec.eq_of_toNat_eq
  rw [Rec.toNat_ofBytes, h0, hb' 1 (by omega), hb' 2 (by omega), hb' 3 (by omega), hb' 4 (by omega),
    hb' 5 (by omega)]
  have hlt := (encRec l[i]).isLt
  simp only [BitVec.toNat_ofNat]
  omega

/-- The bytes of a canonical buffer make that buffer again. -/
theorem Buffer.ofBytes_bytes {B : Buffer} (h : B.wf = true) : Buffer.ofBytes B.bytes = B := by
  have hlen : (Buffer.ofBytes B.bytes).len = B.len := by simp [Buffer.bytes]
  refine Buffer.ext_of_wf (Buffer.ofBytes_wf _) h hlen (fun off => ?_)
  rw [Buffer.byte_ofBytes]
  by_cases ho : off < B.len
  · simp [Buffer.bytes, List.getD, ho]
  · have hfill : ∀ {cells lo}, canonFrom lo B.len cells = true → cellGet off cells = Buffer.fill := by
      intro cells
      induction cells with
      | nil => intro _ _; rfl
      | cons c rest ih =>
        intro lo hc
        rw [canonFrom_cons] at hc
        have hne : off ≠ c.1 := by omega
        rw [show c = (c.1, c.2) from rfl, cellGet, if_neg hne]
        exact ih hc.2.2.2
    rw [show B.byte off = Buffer.fill from hfill h]
    simp [Buffer.bytes, List.getD, ho]

end Sys2Proof.Machine
end

