-- ==== Sys2Proof/Laws/System.lean ====
section
/-! SUPPORT. Conflicts over host memory as shared addresses, what the events of a turn keep and when they break a duty, what a joint
step of several instances can answer, and that a fresh host variable is fresh. -/

namespace Sys2Proof.Machine

/-! ### Conflicts over host memory (R36) -/

theorem overlapSome_iff (as bs : List Region) :
    overlapSome as bs = true ↔ ∃ x, (∃ a ∈ as, a.holds x) ∧ ∃ b ∈ bs, b.holds x := by
  simp only [overlapSome, List.any_eq_true, overlaps_iff, Region.holds]
  constructor
  · rintro ⟨a, ha, b, hb, x, hax, hbx⟩
    exact ⟨x, ⟨a, ha, hax⟩, b, hb, hbx⟩
  · rintro ⟨x, ⟨a, ha, hax⟩, b, hb, hbx⟩
    exact ⟨a, ha, b, hb, x, hax, hbx⟩

/-- Two users conflict exactly when they share an address that one of them writes. -/
theorem MemUse.conflicts_iff (u v : MemUse) :
    u.conflicts v = true ↔
      ∃ x, (∃ a ∈ u.writes, a.holds x) ∧ ((∃ b ∈ v.reads, b.holds x) ∨ ∃ b ∈ v.writes, b.holds x) ∨
        (∃ a ∈ u.reads, a.holds x) ∧ ∃ b ∈ v.writes, b.holds x := by
  simp only [MemUse.conflicts, Bool.or_eq_true, overlapSome_iff, List.mem_append, or_and_right, exists_or]

theorem opReadsAt_iff (s : State) (i : Instr) (x : Nat) :
    opReadsAt s i x ↔ ∃ a ∈ (opMemory i s).reads, a.holds x := by
  cases i <;> simp [opReadsAt, opMemory, MemUse.nothing, Region.holds, State.ibufRegion]

theorem opWritesAt_iff (s : State) (i : Instr) (x : Nat) :
    opWritesAt s i x ↔ ∃ a ∈ (opMemory i s).writes, a.holds x := by
  cases i <;> simp [opWritesAt, opMemory, MemUse.nothing, Region.holds, State.obufRegion]

/-- The clash of two operations in the model's terms. -/
theorem operationsClash_iff (a : State) (i : Instr) (b : State) (j : Instr) :
    operationsClash a i b j ↔ (opMemory i a).conflicts (opMemory j b) = true := by
  simp only [operationsClash, MemUse.conflicts_iff, opReadsAt_iff, opWritesAt_iff]

theorem MemUse.conflicts_comm (u v : MemUse) : u.conflicts v = v.conflicts u := by
  rw [Bool.eq_iff_iff, MemUse.conflicts_iff, MemUse.conflicts_iff]
  refine exists_congr fun x => ?_
  have swap : ∀ {wu ru wv rv : Prop}, wu ∧ (rv ∨ wv) ∨ ru ∧ wv ↔ wv ∧ (ru ∨ wu) ∨ rv ∧ wu := by tauto
  exact swap

/-- An event that writes an address writes some region there. -/
theorem HostEvent.writes_of_eventWritesAt {s : State} {e : HostEvent} {x : Nat} (h : eventWritesAt s e x) :
    ∃ a ∈ (e.memory s).writes, a.holds x := by
  rcases h with ⟨r, rfl, h⟩ | ⟨v, rfl, h⟩ | ⟨v, rfl, h⟩ <;> exact ⟨_, List.mem_singleton_self _, h⟩

theorem HostEvent.reads_of_eventReadsAt {s : State} {e : HostEvent} {x : Nat} (h : eventReadsAt s e x) :
    ∃ a ∈ (e.memory s).reads, a.holds x := by
  rcases h with ⟨r, rfl, h⟩ | ⟨rfl, h⟩ | ⟨rfl, h⟩ <;> exact ⟨_, List.mem_singleton_self _, h⟩

theorem conflicts_of_touchesForbidden {s u : State} {i : Instr} {e : HostEvent} (h : touchesForbidden s i u e) :
    (e.memory u).conflicts (opMemory i s) = true := by
  obtain ⟨x, h⟩ := h
  rw [MemUse.conflicts_iff]
  simp only [opReadsAt_iff, opWritesAt_iff] at h
  exact ⟨x, h.imp (.imp_left HostEvent.writes_of_eventWritesAt) (.imp_left HostEvent.reads_of_eventReadsAt)⟩

/-! ### The events of a turn -/

theorem resultStore_lengths (s : State) (i : Instr) :
    (resultStore s i).inp.sin.length = s.inp.sin.length ∧ (resultStore s i).inp.ibuf.len = s.inp.ibuf.len := by
  cases i with
  | encs =>
    obtain ⟨h1, h2, -⟩ := State.storeBytes_spec s s.place.obufAt (encodeStream s.inp.sin).2
    exact ⟨by rw [resultStore, h1], h2⟩
  | decs =>
    obtain ⟨h1, h2, -⟩ := State.storeSamples_spec s s.place.soutAt (decodeStream s.params s.inp.ibuf).2
    exact ⟨h2, by rw [resultStore, h1]⟩
  | _ => exact ⟨rfl, rfl⟩

/-- The memory an operation uses is where it was once the operation completes. -/
theorem opMemory_next {i : Instr} {s t : State} (h : exec i s = .next t) (hs : List Turn) :
    opMemory i (t.withHost hs) = opMemory i s := by
  obtain ⟨h1, h2⟩ := resultStore_lengths s i
  rw [exec_next h]
  cases i <;> simp [opMemory, State.obufRegion, State.ibufRegion, h1, h2]

/-- What an event does in host memory is the same before and after the operation. -/
theorem HostEvent.memory_next {i : Instr} {s t : State} (h : exec i s = .next t) (hs : List Turn) (e : HostEvent) :
    e.memory (t.withHost hs) = e.memory s := by
  obtain ⟨h1, h2⟩ := resultStore_lengths s i
  rw [exec_next h]
  cases e with
  | drive d => cases d <;> simp [HostEvent.memory, Drive.memory, State.ibufRegion, h2]
  | readOutput p => cases p <;> simp [HostEvent.memory, OutPort.memory, State.obufRegion, h1]
  | _ => rfl

theorem duringOp_append (i : Instr) (es fs : List HostEvent) (s : State) :
    duringOp i (es ++ fs) s = (duringOp i es s).bind (duringOp i fs) := by
  induction es generalizing s with
  | nil => rfl
  | cons e rest ih => simp only [List.cons_append, duringOp]; split <;> simp [ih]

/-- An operation uses the memory it is told to by the ports and regions it reads. -/
theorem opMemory_drive {i : Instr} {s : State} {d : Drive} (h : (opReads i d.port && decide (s.drive d ≠ s)) = false) :
    opMemory i (s.drive d) = opMemory i s := by
  by_cases hs : s.drive d = s
  · rw [hs]
  · have hr : opReads i d.port = false := by simpa [hs] using h
    cases i <;> cases d <;> first | rfl | simp [opReads, Drive.port] at hr

/-- An event that breaks no duty leaves the operation's memory where it is. -/
theorem opMemory_eventEffect {i : Instr} {s : State} {e : HostEvent} (h : breaksDuty i s e = false) :
    opMemory i (eventEffect s e) = opMemory i s := by
  simp only [breaksDuty, Bool.or_eq_false_iff] at h
  cases e with
  | drive d => exact opMemory_drive h.1
  | _ => rfl

theorem opMemory_duringOp {i : Instr} :
    ∀ {es : List HostEvent} {s u : State}, duringOp i es s = some u → opMemory i u = opMemory i s
  | [], _, _, h => by cases h; rfl
  | e :: rest, s, u, h => by
    rw [duringOp] at h
    split at h
    · cases h
    · next hb => rw [opMemory_duringOp h, opMemory_eventEffect (by simpa using hb)]

/-- A turn one of whose events breaks a duty, at the state reached before it, is refused. -/
theorem duringOp_eq_none_of_break {i : Instr} {before after : List HostEvent} {e : HostEvent} {s u : State}
    (h : duringOp i before s = some u) (he : breaksDuty i u e = true) :
    duringOp i (before ++ e :: after) s = none := by
  rw [duringOp_append, h, Option.bind_some, duringOp, if_pos he]

/-- A step whose turn breaks a duty is refused, once the operation itself is not. -/
theorem step_of_brokenTurn {s t : State} {i : Instr} {turn : Turn} {rest : List Turn} (hop : s.inp.op = encode i)
    (he : exec i s = .next t) (hh : s.host = turn :: rest) (hd : duringOp i turn.during (t.withHost rest) = none) :
    step s = .refused .hostDutyBroken := by
  have ht : t.host = turn :: rest := by rw [exec_next he]; simpa using hh
  rw [step, hop, decode_encode]
  simp only [he, settleHost, hostTurn, ht, hd, ite_self]

/-! ### Several instances -/

/-- Everything a joint step that completes can do: every instance's own step completes, and no two clash. -/
theorem stepTogether_eq_next_iff (sys : List (Bool × State)) (ts : List State) :
    stepTogether sys = .next ts ↔
      stepEach sys = .next ts ∧ anyClash ((sys.filter Prod.fst).map Prod.snd) = false := by
  unfold stepTogether
  split
  · next h => simp [h]
  · next h => simp [h]
  · next h => rw [h]; cases anyClash ((sys.filter Prod.fst).map Prod.snd) <;> simp

/-- A refusal of the instances one by one is the joint step's, whatever clashes (R99). -/
theorem stepTogether_of_stepEach_refused {sys : List (Bool × State)} {r : Refusal} (h : stepEach sys = .refused r) :
    stepTogether sys = .refused r := by
  rw [stepTogether, h]

/-- The memory an instance's next operation uses. -/
theorem State.nextMemory_of_op {s : State} {i : Instr} (h : s.inp.op = encode i) : s.nextMemory = opMemory i s := by
  rw [State.nextMemory, h, decode_encode]

/-! ### Host variables -/

theorem Env.get_set_self (env : Env) (v : Var) (x : Value) : (env.set v x).get v = some x := by
  simp [Env.set, Env.get]

theorem Env.get_set_of_ne {env : Env} {v w : Var} (h : w ≠ v) (x : Value) : (env.set v x).get w = env.get w := by
  simp [Env.set, Env.get, h]

theorem le_foldl_max (l : List Nat) : ∀ a, a ≤ l.foldl max a ∧ ∀ n ∈ l, n ≤ l.foldl max a := by
  induction l with
  | nil => simp
  | cons b rest ih =>
    intro a
    obtain ⟨h1, h2⟩ := ih (max a b)
    refine ⟨by simp only [List.foldl_cons]; omega, fun n hn => ?_⟩
    rcases List.mem_cons.mp hn with rfl | hn
    · simp only [List.foldl_cons]; omega
    · exact h2 n hn

theorem lt_freshName_of_mem {env : Env} {ls : List SourceLine} {n : Nat} (h : n ∈ ls.flatMap SourceLine.names) :
    n < freshName env ls :=
  Nat.lt_succ_of_le ((le_foldl_max _ 0).2 n (List.mem_append_right _ h))

/-- A host variable that holds a value has a name below the fresh ones (R55). -/
theorem lt_freshName_of_get {env : Env} {ls : List SourceLine} {v : Var} {x : Value} (h : env.get v = some x) :
    v.name < freshName env ls := by
  have hm : v.name ∈ env.map (fun e => e.1.name) := by
    induction env with
    | nil => cases h
    | cons e rest ih =>
      rw [Env.get] at h
      split at h
      · next hv => rw [hv]; exact List.mem_cons_self
      · exact List.mem_cons_of_mem _ (ih h)
  exact Nat.lt_succ_of_le ((le_foldl_max _ 0).2 _ (List.mem_append_left _ hm))

end Sys2Proof.Machine
end

