-- ==== Sys2Proof/Tests/Slice0.lean ====
section
/-! SUPPORT. Tests whose expected results stand in spec/95_test_vectors.md (named beside each), words written out from the encodings,
ill-formed terms, and for each statement with hypotheses a concrete state and operands that meet them (test_witness_…). -/

namespace Sys2Proof.Tests
open Sys2Proof.Machine

/-! ### Small states -/

/-- The state after reset with the given operation select. -/
def st (op : OpCode) : State := State.reset.withFetchWord 8 op.toNat

/-- What an outcome leaves on the output ports. -/
def outs (o : Host.Outcome State Fault Refusal) : Option OutPorts :=
  match o with
  | .next t => some t.out
  | .fault _ => none
  | .refused _ => none

/-- The refusal of an outcome. -/
def refusalOf (o : Host.Outcome State Fault Refusal) : Option Refusal :=
  match o with
  | .next _ => none
  | .fault _ => none
  | .refused r => some r

def stEnc (td bs : Nat) (x y : F32) : State :=
  (((st 0b000).drive (.tdIn td)).drive (.bsIn bs)).drive (.xIn x) |>.drive (.yIn y)

def stDec (r : Rec) : State := (st 0b001).drive (.recIn r)

def stNarrow (f : F32) : State := (st 0b010).drive (.fIn f)

def stWiden (h : F16) : State := (st 0b011).drive (.hIn h)

def stEncs (l : List Sample) : State := (st 0b100).drive (.sin l)

def stDecs (b : List Byte) : State := (st 0b101).drive (.ibuf b)

/-- An instance without converters. -/
def noCvt (s : State) : State := { s with params := { s.params with hasCvt := false } }

/-- An instance whose streams hold at most `k` records. -/
def maxN (k : Nat) (s : State) : State := { s with params := { s.params with maxN := some k } }

def threeSamples : List Sample :=
  [⟨21, 1, 0x44766148, 0x440EA148⟩, ⟨2048, 0xFF, 0x3F000000, 0x3E800000⟩, ⟨100, 0, 0x42C80000, 0xC0500000⟩]

def threeRecords : List Byte :=
  [0x15, 0x08, 0xB3, 0x63, 0x75, 0x60, 0x00, 0xF8, 0x00, 0x38, 0x00, 0x34, 0x64, 0x00, 0x40, 0x56, 0x80, 0xC2]

/-! ### Words from the encodings -/

/-- R43's table, one word per operation, bit by bit. -/
theorem test_decode_words :
    decode 0b000 = .ok .enc ∧ decode 0b001 = .ok .dec ∧ decode 0b010 = .ok .cvtHS ∧
    decode 0b011 = .ok .cvtSH ∧ decode 0b100 = .ok .encs ∧ decode 0b101 = .ok .decs := by decide

/-- R44: V-X1 and V-X2. -/
theorem test_reserved_words :
    refusalOf (step (st 0b110)) = some .reservedOp ∧ refusalOf (step (st 0b111)) = some .reservedOp := by decide

/-- opcode_table.json's `match` column. -/
theorem test_table_words : [0, 1, 2, 3, 4, 5, 6, 7].map (decodeTableWord 8) =
    [some .enc, some .dec, some .cvtHS, some .cvtSH, some .encs, some .decs, none, none] := by decide

/-- R45's layout by hand: `TD = 2047`, `BTN = 0` fills byte 0 and bits 2..0 of byte 1; `BTN = 31` the rest of byte 1. -/
theorem test_record_layout :
    Rec.pack 2047 0 0 0 = 0x0000000007FF#48 ∧ Rec.pack 0 31 0 0 = 0x00000000F800#48 ∧
    Rec.pack 0 0 0xABCD 0 = 0x0000ABCD0000#48 ∧ Rec.pack 0 0 0 0xABCD = 0xABCD00000000#48 := by decide

/-! ### Ill-formed terms -/

/-- Each check of R7 refuses a value outside its bound, and HAS_CVT removes the converters. -/
theorem test_ill_formed :
    Params.legal { Params.hardware with tdW := 10 } = false ∧ Params.legal { Params.hardware with bsW := 5 } = false ∧
    Params.legal { Params.hardware with maxN := some 0 } = false ∧ Params.hardware.legal = true ∧
    WellFormed { Params.hardware with hasCvt := false } .cvtHS = false ∧
    WellFormed { Params.hardware with hasCvt := false } .cvtSH = false := by decide

/-- The canonical form refuses a listed zero, offsets out of order, and an offset at the length. -/
theorem test_ill_formed_buffers :
    Buffer.wf ⟨6, [(1, 0)]⟩ = false ∧ Buffer.wf ⟨6, [(2, 1), (1, 1)]⟩ = false ∧ Buffer.wf ⟨6, [(6, 1)]⟩ = false ∧
    Buffer.wf ⟨6, [(0, 1), (5, 1)]⟩ = true := by decide

/-- A sample wider than its ports, and an output port driven beside another operation's, are not well formed. -/
theorem test_ill_formed_states :
    Sample.fits Params.hardware ⟨65536, 0, 0, 0⟩ = false ∧ Sample.fits Params.hardware ⟨0, 256, 0, 0⟩ = false ∧
    OutPorts.coherent { OutPorts.undriven with recOut := some 0, hOut := some 0 } = false := by decide

/-! ### The vectors of 95_test_vectors.md -/

/-- V-E4: 2048 stores 0 and the button field stays 1. -/
theorem test_enc_truncates :
    outs (step (stEnc 2048 1 0x3F000000 0x3E800000)) = some (OutPorts.ofRecord 0x340038000800#48) := by decide

/-- V-E6: a negative button state, a NaN, an infinity. -/
theorem test_enc_specials :
    outs (step (stEnc 5 0xFF 0x7FC00000 0xFF800000)) = some (OutPorts.ofRecord 0xFC007E00F805#48) := by decide

/-- V-D4: -0, and a signalling NaN that comes out quiet. -/
theorem test_dec_specials :
    outs (step (stDec 0x7C01800007FF)) = some (OutPorts.ofSample ⟨2047, 0, 0x80000000, 0x7FC02000⟩) := by decide

/-- V-D5: field 16 stays 16; subnormals are widened exactly. -/
theorem test_dec_subnormals :
    outs (step (stDec 0x03FF00018000)) = some (OutPorts.ofSample ⟨0, 16, 0x33800000, 0x387FC000⟩) := by decide

/-- V-H23: a tie that goes up to even, where truncation gives 3C01. -/
theorem test_cvt_hs_tie : outs (step (stNarrow 0x3F803000)) = some (OutPorts.ofHalf 0x3C02) := by decide

/-- V-H4, V-H5, V-H15, V-H16, V-H20: around the overflow tie, around half the smallest subnormal, and into the smallest normal. -/
theorem test_cvt_hs_edges :
    [0x477FEFFF, 0x477FF000, 0x33000000, 0x33000001, 0x387FE000].map f32ToF16 =
      [0x7BFF, 0x7C00, 0x0000, 0x0001, 0x0400] := by decide

/-- V-W5: the largest subnormal becomes an F32 normal. -/
theorem test_cvt_sh_subnormal : outs (step (stWiden 0x03FF)) = some (OutPorts.ofFull 0x387FC000) := by decide

/-- V-W10, V-W12, V-W13: infinity, a signalling NaN, a negative NaN. -/
theorem test_cvt_sh_specials :
    [0xFC00, 0x7C01, 0xFFFF].map f16ToF32 = [0xFF800000, 0x7FC02000, 0xFFFFE000] := by decide

/-- V-X3 and V-X4. -/
theorem test_cvt_absent :
    refusalOf (step (noCvt (stNarrow 0x3F800000))) = some .cvtAbsent ∧
    refusalOf (step (noCvt (stWiden 0))) = some .cvtAbsent := by decide

/-- V-ES3. -/
theorem test_encs_three :
    outs (step (stEncs threeSamples)) = some (OutPorts.ofBuffer (Buffer.ofBytes threeRecords)) := by decide

/-- V-ES4 (R66), and V-X6 (R37) which is met first (R99). -/
theorem test_encs_refusals :
    refusalOf (step (maxN 2 (stEncs threeSamples))) = some .streamTooLong ∧
    refusalOf (step (maxN 2 ((stEncs threeSamples).drive (.sinRegion ⟨17, 48⟩)))) = some .bufferOverlap := by decide

/-- V-DS4: two trailing bytes. -/
theorem test_decs_trailing :
    outs (step (stDecs (threeRecords ++ [0xAA, 0xBB]))) =
      some (OutPorts.ofSamples [⟨21, 1, 0x44766000, 0x440EA000⟩, ⟨0, 31, 0x3F000000, 0x3E800000⟩,
        ⟨100, 0, 0x42C80000, 0xC0500000⟩]) := by decide

/-- V-DS2: five bytes hold no record. -/
theorem test_decs_short : outs (step (stDecs [0x15, 0x08, 0xB3, 0x63, 0x75])) = some (OutPorts.ofSamples []) := by decide

/-- V-X5: after DEC a read of `h_out` is refused. -/
theorem test_undriven_read :
    (match step (stDec 0) with
      | .next t => readOut t .hOut
      | _ => .ok (.int 0)) = .error .undrivenRead := by decide

/-- V-S1's literals: `f32(985.52)`, `f32(570.52)` (R54). -/
theorem test_decimal_literals :
    f32Decimal false 98552 2 = 0x44766148#32 ∧ f32Decimal false 57052 2 = 0x440EA148#32 := by decide

/-- P4: `QUANT f2, f` (R55). -/
theorem test_quant_program :
    (match runSource [.quant ⟨2, none⟩ ⟨1, none⟩] [(⟨1, none⟩, .f32 0x3F801001)] State.reset with
      | .done env _ => env.get ⟨2, none⟩
      | _ => none) = some (.f32 0x3F802000) := by decide

/-- R55: the fresh variable is none that holds a value, named by a line or not. -/
theorem test_fresh_variable :
    (match runSource [.quant ⟨2, none⟩ ⟨1, none⟩] [(⟨3, none⟩, .int 7), (⟨1, none⟩, .f32 0x3F801001)] State.reset with
      | .done env _ => (env.get ⟨3, none⟩, env.get ⟨2, none⟩)
      | _ => (none, none)) = (some (.int 7), some (.f32 0x3F802000)) := by decide

/-- P3, written as ROUNDTRIP: 2048 comes back 0 and 0xF0 comes back 16 (R55). -/
theorem test_roundtrip_program :
    (match runSource [.roundtrip 2 1] (Env.setSample [] 1 ⟨2048, 0xF0, 0, 0⟩) State.reset with
      | .done env _ => (env.get ⟨2, some .td⟩, env.get ⟨2, some .bs⟩)
      | _ => (none, none)) = (some (.int 0), some (.int 16)) := by decide

/-! ### Witnesses of the statements' hypotheses -/

theorem test_witness_StepRunsSelectedOperation :
    decode (st 0b010).inp.op = .ok .cvtHS ∧ (st 0b010).seq.busy = false ∧ (st 0b010).host = [] ∧
    (outs (exec .cvtHS (st 0b010))).isSome = true ∧
    (let b := (st 0b010).withSeq (Sequencer.start 3)
     b.seq.busy = true ∧ (outs (exec .cvtHS b)).isSome = true) ∧
    refusalOf (exec .cvtHS (noCvt (st 0b010))) = some .cvtAbsent := by decide

/-- Each refusal of the list, on a code that is an operation; a busy instance and a broken duty come last. -/
theorem test_witness_StepRefusalsFollowTheListedOrder :
    refusalOf (step (noCvt (st 0b010))) = some .cvtAbsent ∧
    refusalOf (step (maxN 2 ((stEncs threeSamples).drive (.sinRegion ⟨17, 1⟩)))) = some .bufferOverlap ∧
    refusalOf (step (maxN 2 (stDecs threeRecords))) = some .streamTooLong ∧
    refusalOf (step ((st 0).withSeq (Sequencer.start 0))) = some .hostDutyBroken ∧
    (st 0b010).inp.op = encode .cvtHS := by decide

/-- A well-formed state with a turn of the host that drives, resets, and drives again. -/
def busyHost : State :=
  (stEncs threeSamples).withHost
    [{ during := [.drive (.fIn 1)], after := [.drive (.ibuf [1, 0, 2]), .reset, .drive (.op 0b101)] }]

theorem test_witness_StepKeepsStateWellFormed :
    busyHost.wf = true ∧ (outs (step busyHost)).isSome = true := by decide

theorem test_witness_StepKeepsParametersAndInputs :
    (outs (step busyHost)).isSome = true ∧ (outs (step (st 0b000))).isSome = true ∧ (st 0b000).host = [] := by decide

/-- The smallest legal `BS_W` and this hardware's; -1 and -16 at both. -/
theorem test_witness_ButtonFieldIsLowFiveBits :
    Params.legal { Params.hardware with bsW := 6 } = true ∧ Params.hardware.legal = true ∧
    asSigned 6 63 = -1 ∧ asSigned 6 48 = -16 ∧ asSigned 8 0xFF = -1 ∧ asSigned 8 0xF0 = -16 ∧
    (63 < 2 ^ 6 ∧ 0xFF < 2 ^ 8) := by decide

theorem test_witness_legal_params :
    (stDec 0xFFFFFFFFFFFF).params.legal = true ∧
    Params.legal { tdW := 11, bsW := 6, hasCvt := false, maxN := some 1, latency := 9 } = true := by decide

theorem test_witness_Converters :
    (stNarrow 1).params.hasCvt = true ∧ (noCvt (stNarrow 1)).params.hasCvt = false := by decide

/-- Regions that touch but do not overlap, and a count equal to MAX_N. -/
def encsTight : State := maxN 3 ((stEncs threeSamples).drive (.sinRegion ⟨18, 48⟩))

theorem test_witness_EncsWritesRecordsInOrder :
    encsTight.place.sinAt.overlaps encsTight.obufRegion = false ∧
    exceedsMax encsTight.params encsTight.inp.sin.length = false ∧ (stEncs []).inp.sin = [] := by decide

/-- Both refusals of each stream operation, on their boundaries. -/
theorem test_witness_StreamRefusals :
    refusalOf (exec .encs ((stEncs threeSamples).drive (.sinRegion ⟨17, 1⟩))) = some .bufferOverlap ∧
    refusalOf (exec .encs (maxN 2 (stEncs threeSamples))) = some .streamTooLong ∧
    refusalOf (exec .decs ((stDecs threeRecords).drive (.soutRegion ⟨17, 1⟩))) = some .bufferOverlap ∧
    refusalOf (exec .decs (maxN 2 (stDecs threeRecords))) = some .streamTooLong := by decide

def decsTight : State := maxN 3 ((stDecs (threeRecords ++ [0xAA])).drive (.soutRegion ⟨19, 48⟩))

theorem test_witness_DecsReadsWholeRecords :
    decsTight.ibufRegion.overlaps decsTight.place.soutAt = false ∧
    exceedsMax decsTight.params (decsTight.inp.ibuf.len / 6) = false ∧
    decsTight.inp.ibuf.len = 6 * 3 + 1 ∧ (stDecs [1, 2, 3, 4, 5]).inp.ibuf.len < 6 := by decide

/-- V-DS5's two buffers: one trailing byte against another; the bytes below 18 are the same by construction. -/
theorem test_witness_TrailingBytesHaveNoEffect :
    (stDecs (threeRecords ++ [0xAA])).params = (stDecs (threeRecords ++ [0xBB, 0xCC])).params ∧
    (stDecs (threeRecords ++ [0xAA])).inp.ibuf.len / 6 = (stDecs (threeRecords ++ [0xBB, 0xCC])).inp.ibuf.len / 6 ∧
    (∀ off < 18, (stDecs (threeRecords ++ [0xAA])).inp.ibuf.byte off =
      (stDecs (threeRecords ++ [0xBB, 0xCC])).inp.ibuf.byte off) ∧
    opReady (stDecs (threeRecords ++ [0xAA])) .decs = true ∧
    opReady (stDecs (threeRecords ++ [0xBB, 0xCC])) .decs = true := by decide

/-- Every operation completes somewhere: the frames and the rule on driven ports are about real next states. -/
theorem test_witness_Frames :
    (outs (exec .enc (st 0))).isSome = true ∧ (outs (exec .dec (st 1))).isSome = true ∧
    (outs (exec .cvtHS (st 2))).isSome = true ∧ (outs (exec .cvtSH (st 3))).isSome = true ∧
    (outs (exec .encs encsTight)).isSome = true ∧ (outs (exec .decs decsTight)).isSome = true ∧
    opDrives .enc .recOut = true ∧ opDrives .enc .obuf = false := by decide

/-- Two states that agree on the inputs and differ in all else. -/
theorem test_witness_OutcomeDependsOnInputsAlone :
    (let s := (encsTight.complete (OutPorts.ofHalf 7)).withSeq (Sequencer.start 9)
     s.params = encsTight.params ∧ s.inp = encsTight.inp ∧ s.place = encsTight.place ∧ s ≠ encsTight) := by decide

theorem test_witness_Buffers :
    6 * 2 + 6 ≤ (Buffer.ofBytes threeRecords).len ∧ 16 + 2 ≤ (Buffer.ofBytes threeRecords).len ∧
    (Buffer.ofBytes threeRecords).wf = true ∧ (12 + 6 ≤ (Buffer.ofBytes threeRecords).len ∧ 0 + 12 ≤ 12) := by decide

/-- 1/3, the tie 1 + 2^-11, the largest value below 65520, and F16 values to compare with. -/
theorem test_witness_NarrowingIsNearestTiesToEven :
    f32Value 0x3EAAAAAB#32 = .finite false (11184811 * 2 ^ 124) ∧ f32Value 0x3F801000#32 = .finite false (8392704 * 2 ^ 126) ∧
    f32Value 0x477FEFFF#32 = .finite false (16773119 * 2 ^ 141) ∧ 16773119 * 2 ^ 141 < 65520 * 2 ^ 149 ∧
    f16Value 0x3C00#16 = .finite false (1024 * 2 ^ 139) ∧ f16Value 0x3C01#16 = .finite false (1025 * 2 ^ 139) := by decide

/-- 65520 itself, and the infinities. -/
theorem test_witness_NarrowingOverflowsToInfinity :
    f32Value 0x477FF000#32 = .finite false (65520 * 2 ^ 149) ∧ f32Value 0xC77FF000#32 = .finite true (65520 * 2 ^ 149) ∧
    f32Value 0x7F800000#32 = .inf false ∧ f32Value 0xFF800000#32 = .inf true := by decide

theorem test_witness_NaNsComeOutQuiet :
    f32IsNaN 0x7F800001#32 = true ∧ f16IsNaN 0x7C01#16 = true ∧ f16IsNaN 0x7C00#16 = false := by decide

/-- `2^-25` and the next pattern above it, of either sign. -/
theorem test_witness_SubnormalResultsAreNotFlushed :
    f32Value 0x33000000#32 = .finite false (2 ^ 124) ∧ f32Value 0xB3000001#32 = .finite true (2 ^ 124 + 2 ^ 101) := by decide

/-- `2^-14` and the largest value below 65520 bound the normal range. -/
theorem test_witness_RelativeErrorIsAtMostTwoToMinusEleven :
    f32Value 0x38800000#32 = .finite false (2 ^ 135) ∧
    (2 ^ 135 ≤ 16773119 * 2 ^ 141 ∧ 16773119 * 2 ^ 141 < 65520 * 2 ^ 149) := by decide

/-- 985.5 in both formats. -/
theorem test_witness_RepresentableValuesAreUnchanged :
    f32IsNaN 0x44766000#32 = false ∧ f32Value 0x44766000#32 = f16Value 0x63B3#16 := by decide

theorem test_witness_EncodeAfterDecodeOfRecord :
    Params.hardware.legal = true ∧ f16IsSignalling (Rec.hx 0x607563B30815#48) = false ∧
    f16IsSignalling (Rec.hy 0x607563B30815#48) = false ∧ f16IsSignalling (Rec.hy 0x7C01800007FF#48) = true := by decide

theorem test_witness_StreamRoundTrip :
    encsTight.params.legal = true ∧ opReady encsTight .encs = true ∧
    (let u := maxN 3 (stDecs threeRecords)
     u.params = encsTight.params ∧ u.inp.ibuf = Buffer.ofBytes (encodeStream encsTight.inp.sin).2.bytes ∧
     opReady u .decs = true) := by decide

/-- A state whose next turn holds these events. -/
def during (es : List HostEvent) (s : State) : State := s.withHost [{ during := es, after := [] }]

/-- Every one of the events, at this state, is refused as a broken duty. -/
def allBroken (es : List HostEvent) (s : State) : Bool :=
  es.all (fun e => decide (refusalOf (step (during [e] s)) = some .hostDutyBroken))

/-- One turn for each way to break a duty during ENC, and the refusal; a drive of a read input may come late in the turn. -/
theorem test_witness_BrokenHostDutyIsRefused :
    allBroken [.startNext, .assertReset, .readOutput .recOut, .drive (.tdIn 5)] (st 0) = true ∧
    (st 0).inp.op = encode .enc ∧ (outs (exec .enc (during [.startNext] (st 0)))).isSome = true ∧
    opReads .enc (Drive.tdIn 5).port = true ∧ ((st 0).drive (.tdIn 5)).inp ≠ (st 0).inp ∧
    refusalOf (step (during [.drive (.fIn 1), .drive (.tdIn 0), .drive (.tdIn 5)] (st 0))) = some .hostDutyBroken := by decide

/-- The same statement for a region moved clear of everything: each region the operation uses. -/
theorem test_witness_BrokenHostDutyIsRefused_regions :
    allBroken [.drive (.sinRegion ⟨900, 48⟩), .drive (.obufRegion 900)] encsTight = true ∧
    allBroken [.drive (.ibufRegion 900), .drive (.soutRegion ⟨900, 48⟩)] decsTight = true ∧
    opReads .encs (Drive.obufRegion 900).port = true ∧
    (encsTight.drive (.obufRegion 900)).place ≠ encsTight.place := by decide

/-- What a step leaves in an outcome's next state. -/
def nextOf (o : Host.Outcome State Fault Refusal) : Option State :=
  match o with
  | .next t => some t
  | .fault _ => none
  | .refused _ => none

/-- V-ES3's samples encoded by ENCS into `obuf` at 18..35, and an `ibuf` of 18 ones with its first byte at `base`. -/
def encsOver (base : Nat) : State :=
  (((stEncs threeSamples).drive (.obufRegion 18)).drive (.ibufRegion base)).drive (.ibuf (List.replicate 18 1))

/-- `obuf` exactly over `ibuf` (R36): DECS, with no drive of `ibuf` in between, sees V-DS4's records. -/
theorem test_witness_DecsSeesWhatEncsWrote :
    (encsOver 18).wf = true ∧ opReady (encsOver 18) .encs = true ∧ (encsOver 18).host = [] ∧
    (encsOver 18).inp.op = encode .encs ∧ (encsOver 18).place.ibufAt = (encsOver 18).place.obufAt ∧
    (encsOver 18).inp.ibuf.len = 6 * (encsOver 18).inp.sin.length ∧
    ((nextOf (step (encsOver 18))).bind (fun t => outs (step (t.drive (.op 0b101))))) =
      some (OutPorts.ofSamples [⟨21, 1, 0x44766000, 0x440EA000⟩, ⟨0, 31, 0x3F000000, 0x3E800000⟩,
        ⟨100, 0, 0x42C80000, 0xC0500000⟩]) := by decide

/-- Over the last two and the first two bytes of `ibuf`, and beside it on either side: V-ES3's bytes at the shared addresses alone. -/
theorem test_encs_stores_by_address :
    [2, 34, 0, 36].map (fun base => (nextOf (step (encsOver base))).map (fun t => t.inp.ibuf.bytes)) =
      [some (List.replicate 16 1 ++ [0x15, 0x08]), some ([0x80, 0xC2] ++ List.replicate 16 1),
       some (List.replicate 18 1), some (List.replicate 18 1)] := by decide

/-- DECS with `sout` over `sin`: as many samples, each a free value; with `sout` beside it, or empty, `sin` stays. -/
theorem test_witness_DecsFrame_over_sin :
    (let s := ((decsTight.drive (.sinRegion ⟨66, 9⟩)).drive (.sin threeSamples))
     (nextOf (step s)).map (fun t => (t.inp.sin.length, t.draws)) = some (3, 1) ∧
     (nextOf (step (s.drive (.sinRegion ⟨67, 9⟩)))).map (fun t => (t.inp.sin, t.draws)) = some (s.inp.sin, 0) ∧
     (nextOf (step ((s.drive (.ibuf [1])).drive (.soutRegion ⟨66, 1⟩)))).map (fun t => (t.inp.sin, t.draws)) =
       some (s.inp.sin, 0)) := by decide

/-- An input moved during ENCS is read where it was: refused where that is the output region (R36). -/
theorem test_move_reads_old_place :
    allBroken [.drive (.ibufRegion 900)] (encsOver 34) = true ∧ allBroken [.drive (.ibufRegion 900)] (encsOver 36) = false := by
  decide

/-- A region the operation does not use may move. -/
theorem test_unused_region_moves :
    (outs (step (during [.drive (.soutRegion ⟨0, 9⟩)] encsTight))).isSome = true := by decide

/-- ENCS with `obuf` at 0..17 and `sin` at 18..65, DECS with `ibuf` at 0..18 and `sout` at 19..66: the last byte of each region. R36. -/
theorem test_witness_TouchingOperationsMemoryIsRefused :
    allBroken [.drive (.ibuf [7]), .writeMemory ⟨17, 1⟩, .writeMemory ⟨65, 1⟩, .readMemory ⟨17, 1⟩, .readOutput .sout]
      (encsTight.drive (.soutRegion ⟨17, 1⟩)) = true ∧
    allBroken [.drive (.sin []), .writeMemory ⟨18, 1⟩, .writeMemory ⟨66, 1⟩, .readMemory ⟨19, 1⟩, .readOutput .obuf]
      ((((decsTight.drive (.sinRegion ⟨66, 1⟩)).drive (.sin [⟨0, 0, 0, 0⟩])).drive (.obufRegion 66))) = true ∧
    (outs (exec .encs encsTight)).isSome = true ∧ (outs (exec .decs decsTight)).isSome = true := by decide

/-- Reading an input in place, and touching what lies beside the regions. -/
theorem test_witness_ClearMemoryAccessIsNoBrokenDuty :
    (outs (step (during [.readMemory ⟨18, 48⟩, .writeMemory ⟨66, 9⟩, .readOutput .fOut] encsTight))).isSome = true ∧
    (outs (step (during [.readMemory ⟨0, 19⟩, .writeMemory ⟨67, 9⟩] decsTight))).isSome = true := by decide

/-- An unread scalar input; and an `ibuf` placed right behind ENCS's regions. -/
theorem test_witness_UnreadInputsMayChangeDuringOperation :
    (let s := during [.drive (.fIn 9)] (st 0)
     s.inp.op = encode .enc ∧ s.seq.busy = false ∧ opReads .enc (Drive.fIn 9).port = false ∧
     (outs (exec .enc s)).isSome = true ∧ (outs (step s)).isSome = true) ∧
    (let s := during [.drive (.ibuf [1, 2])] (encsTight.drive (.ibufRegion 66))
     opReads .encs (Drive.ibuf [1, 2]).port = false ∧ (Drive.ibuf [1, 2]).memory s = ⟨[], [⟨66, 2⟩]⟩ ∧
     (outs (step s)).isSome = true) := by decide

theorem test_witness_Programs :
    Env.get [(⟨1, none⟩, .f32 3)] ⟨1, none⟩ = some (.f32 3) ∧
    (Env.setSample [] 1 ⟨2048, 0xF0, 5, 6⟩).get ⟨1, some .td⟩ = some (.int 2048) ∧
    (Env.setSample [] 1 ⟨2048, 0xF0, 5, 6⟩).get ⟨1, some .y⟩ = some (.f32 6) ∧
    State.reset.params.hasCvt = true ∧ State.reset.params.legal = true ∧ State.reset.seq.busy = false ∧
    State.reset.host = [] := by decide

/-- What a joint step of two instances answers: refused with a reason, or how many instances go on. -/
def together (sys : List (Bool × State)) : Option Refusal × Nat :=
  match stepTogether sys with
  | .next ts => (none, ts.length)
  | .fault _ => (none, 0)
  | .refused r => (some r, 0)

/-- An encoder elsewhere: `obuf` at 100..117, `sin` at 200..247. -/
def encsFar : State := (encsTight.drive (.sinRegion ⟨200, 48⟩)).drive (.obufRegion 100)

/-- A decoder elsewhere: `ibuf` at 100..118, `sout` at 300..347. -/
def decsFar : State := (decsTight.drive (.ibufRegion 100)).drive (.soutRegion ⟨300, 48⟩)

/-- An idle instance beside a running one, and two instances apart. -/
theorem test_witness_InstancesDoNotInteract :
    together [(true, stEnc 1 1 0 0), (false, st 7)] = (none, 2) ∧
    together [(true, encsTight), (true, decsFar)] = (none, 2) := by decide

/-- Both clauses: outputs of two encoders and of two decoders that share one byte, one operation writing what the other reads, and
shared inputs, which do not clash (R36, R105). -/
theorem test_witness_SharedOutputsClashSharedInputsDoNot :
    ([encsTight, encsFar].all (opReady · .encs) && [decsTight, decsFar].all (opReady · .decs)) = true ∧
    together [(true, encsTight), (true, encsFar.drive (.obufRegion 17))] = (some .hostDutyBroken, 0) ∧
    together [(true, decsTight), (true, decsFar.drive (.soutRegion ⟨66, 8⟩))] = (some .hostDutyBroken, 0) ∧
    together [(true, decsFar), (true, encsFar)] = (some .hostDutyBroken, 0) ∧
    together [(true, encsTight), (true, encsFar.drive (.obufRegion 65))] = (some .hostDutyBroken, 0) ∧
    together [(true, encsTight), (true, encsFar.drive (.sinRegion ⟨18, 48⟩))] = (none, 2) ∧
    together [(true, decsTight), (true, (decsFar.drive (.ibufRegion 0)))] = (none, 2) := by decide

/-- One instance's host drives `ibuf`, or reads memory, where the other's operation writes. -/
theorem test_witness_TouchingAnothersMemoryIsRefused :
    together [(true, during [.drive (.ibuf [7])] (st 0)), (true, decsTight)] = (some .hostDutyBroken, 0) ∧
    together [(true, encsTight), (true, during [.readMemory ⟨17, 1⟩] (st 0))] = (some .hostDutyBroken, 0) ∧
    together [(true, encsTight), (true, during [.readMemory ⟨18, 1⟩] (st 0))] = (none, 2) ∧
    opReady (st 0) .enc = true := by decide

/-- An encoder whose own regions overlap, beside one it also clashes with (R99). -/
theorem test_witness_FirstRefusedInstanceIsRecorded :
    together [(true, encsTight), (true, encsTight.drive (.sinRegion ⟨17, 1⟩))] = (some .bufferOverlap, 0) ∧
    together [(true, encsTight), (true, maxN 2 encsTight)] = (some .streamTooLong, 0) ∧
    (outs (step encsTight)).isSome = true := by decide

end Sys2Proof.Tests
end

/-! PROOFS. The statements of family 00_scope: reading back what was written to a buffer (R10), and the invariant every step
keeps (R7, R16, R17, R22, R23). -/

namespace Sys2Proof.Machine

/-! ### Little-endian reads (R10) -/

/-- A read depends on the bytes of its window alone. -/
theorem leValue_congr {B C : Buffer} :
    ∀ {n off : Nat}, (∀ a, off ≤ a → a < off + n → B.byte a = C.byte a) → leValue B off n = leValue C off n
  | 0, _, _ => rfl
  | n + 1, off, h => by
    have htail : leValue B (off + 1) n = leValue C (off + 1) n :=
      leValue_congr fun a h1 h2 => h a (by omega) (by omega)
    rw [leValue, leValue, h off le_rfl (by omega), htail]

/-- A window that holds the base-256 digits of `v`, lowest first, reads as `v` modulo the window's range. -/
theorem leValue_of_digits {B : Buffer} :
    ∀ {n off v : Nat}, (∀ k, k < n → B.byte (off + k) = BitVec.ofNat 8 (v / 256 ^ k)) → leValue B off n = v % 256 ^ n
  | 0, _, v, _ => by rw [leValue, Nat.pow_zero, Nat.mod_one]
  | n + 1, off, v, h => by
    have hhead : (B.byte off).toNat = v % 256 := by simpa using congrArg BitVec.toNat (h 0 (by omega))
    have htail : leValue B (off + 1) n = v / 256 % 256 ^ n := leValue_of_digits fun k hk => by
      rw [Nat.div_div_eq_div_mul, ← Nat.pow_succ', ← h (k + 1) (by omega), Nat.add_right_comm, Nat.add_assoc]
    rw [leValue, hhead, htail, Nat.pow_succ', Nat.mod_mul]

/-- A read of the window just written gives the value's low bytes. -/
theorem Buffer.memRead_memWrite_same {B : Buffer} (hB : B.wf = true) {off n : Nat} (hle : off + n ≤ B.len) (v : Nat) :
    (B.memWrite off n v).memRead off n = some (v % 2 ^ (8 * n)) := by
  have hdigits : leValue (B.memWrite off n v) off n = v % 256 ^ n := leValue_of_digits fun k hk => by
    rw [Buffer.byte_memWrite hB hle, if_pos (by omega), Nat.add_sub_cancel_left]
  rw [Buffer.memRead, Buffer.memWrite_len, if_pos hle, hdigits, Nat.pow_mul]

/-- A read of a window apart from the one written is not changed by the write. -/
theorem Buffer.memRead_memWrite_apart {B : Buffer} (hB : B.wf = true) {off n : Nat} (hle : off + n ≤ B.len) (v : Nat)
    {off' n' : Nat} (hapart : off' + n' ≤ off ∨ off + n ≤ off') :
    (B.memWrite off n v).memRead off' n' = B.memRead off' n' := by
  have hsame : leValue (B.memWrite off n v) off' n' = leValue B off' n' := leValue_congr fun a h1 h2 => by
    rw [Buffer.byte_memWrite hB hle, if_neg (by omega)]
  rw [Buffer.memRead, Buffer.memRead, Buffer.memWrite_len, hsame]

/-- Settles O29: the bytes after a write are the value's digits inside the window and the old ones outside. -/
theorem bufferReadAfterWrite : Obligations.BufferReadAfterWrite := fun _ off n v hB hle =>
  ⟨Buffer.memWrite_wf hB off n v, Buffer.memWrite_len _ off n v, Buffer.memRead_memWrite_same hB hle v,
    fun _ _ hapart => Buffer.memRead_memWrite_apart hB hle v hapart⟩

/-! ### Well-formedness, conjunct by conjunct -/

theorem InPorts.fits_iff {p : Params} {f : InPorts} :
    f.fits p = true ↔
      f.tdIn < 2 ^ p.tdW ∧ f.bsIn < 2 ^ p.bsW ∧ f.sin.all (Sample.fits p) = true ∧ f.ibuf.wf = true := by
  simp [InPorts.fits, and_assoc]

theorem State.wf_iff {s : State} :
    s.wf = true ↔
      s.params.legal = true ∧ s.inp.fits s.params = true ∧ s.out.fits s.params = true ∧ s.out.coherent = true ∧
        s.seq.busy = false := by
  simp [State.wf, and_assoc]

/-! ### What the host does keeps the state well formed (R14, R16) -/

theorem Sample.clip_fits (p : Params) (a : Sample) : (a.clip p).fits p = true := by
  simp [Sample.clip, Sample.fits, Nat.mod_lt]

/-- A drive puts on a port a value of the port's width, and leaves the other ports. -/
theorem Drive.onPorts_fits {p : Params} {f : InPorts} (h : f.fits p = true) (d : Drive) :
    (d.onPorts p f).fits p = true := by
  obtain ⟨htd, hbs, hsin, hibuf⟩ := InPorts.fits_iff.mp h
  rw [InPorts.fits_iff]
  cases d with
  | tdIn v => exact ⟨Nat.mod_lt _ (Nat.two_pow_pos _), hbs, hsin, hibuf⟩
  | bsIn v => exact ⟨htd, Nat.mod_lt _ (Nat.two_pow_pos _), hsin, hibuf⟩
  | sin v => exact ⟨htd, hbs, by simp [Drive.onPorts, Sample.clip_fits], hibuf⟩
  | ibuf v => exact ⟨htd, hbs, hsin, Buffer.ofBytes_wf v⟩
  | _ => exact ⟨htd, hbs, hsin, hibuf⟩

theorem State.drive_wf (s : State) (d : Drive) (h : s.wf = true) : (s.drive d).wf = true := by
  obtain ⟨hlegal, hinp, hrest⟩ := State.wf_iff.mp h
  exact State.wf_iff.mpr ⟨hlegal, Drive.onPorts_fits hinp d, hrest⟩

theorem State.assertReset_wf (s : State) (h : s.wf = true) : s.assertReset.wf = true := by
  obtain ⟨hlegal, hinp, _⟩ := State.wf_iff.mp h
  exact State.wf_iff.mpr ⟨hlegal, hinp, rfl, rfl, rfl⟩

/-- The host's turn is drives and resets, and each of them keeps the state well formed. -/
theorem hostTurn_keeps_wf {i : Instr} {s u : State} (h : hostTurn i s = .next u) (hs : s.wf = true) : u.wf = true := by
  obtain ⟨-, rfl⟩ | ⟨t, rest, v, -, hduring, rfl⟩ := hostTurn_next_cases h
  · exact hs
  · have hv : v.wf = true := duringOp_invariant (P := fun s => s.wf = true) State.drive_wf i hduring hs
    exact afterOp_invariant (P := fun s => s.wf = true) State.drive_wf State.assertReset_wf hv

/-! ### What an operation does keeps the state well formed (R17, R22, R23) -/

/-- A field brought to a port's width fits the port, whatever the width. -/
theorem zextNat_lt {k : Nat} (w : Nat) (v : BitVec k) : zextNat w v < 2 ^ w := BitVec.isLt _

theorem decRec_fits (p : Params) (r : Rec) : (decRec p r).fits p = true := by
  simp [decRec, Sample.fits, zextNat_lt]

/-- What an operation drives fits its ports: DEC and DECS drive decoded samples, and ENCS a canonical buffer. -/
theorem resultPorts_fits (s : State) (i : Instr) : (resultPorts s i).fits s.params = true := by
  cases i with
  | dec =>
    simp [resultPorts, OutPorts.fits, OutPorts.ofSample, OutPorts.undriven, decRec, zextNat_lt]
  | encs =>
    obtain ⟨-, -, hwf, -⟩ := encodeStream_spec s.inp.sin
    simp [resultPorts, OutPorts.fits, OutPorts.ofBuffer, OutPorts.undriven, hwf]
  | decs =>
    simp [resultPorts, OutPorts.fits, OutPorts.ofSamples, OutPorts.undriven, decodeStream_spec, decRec_fits]
  | _ => rfl

/-- The ports an operation leaves driven are exactly its own (R17). -/
theorem resultPorts_coherent (s : State) (i : Instr) : (resultPorts s i).coherent = true := by
  have hexact : (resultPorts s i).exactly i = true := by
    simp [OutPorts.exactly, OutPorts.driven, resultPorts_value_isSome]
  have hmem : i ∈ [Instr.enc, .dec, .cvtHS, .cvtSH, .encs, .decs] := by cases i <;> decide
  rw [OutPorts.coherent, List.any_eq_true.mpr ⟨i, hmem, hexact⟩, Bool.or_true]

/-- Nothing is in progress once an operation has completed (R23). -/
theorem resultSeq_idle {s : State} (h : s.seq.busy = false) (i : Instr) : (resultSeq s i).busy = false := by
  cases i with
  | encs => rw [resultSeq, (encodeStream_spec s.inp.sin).1]
  | decs => rw [resultSeq, decodeStream_spec]
  | _ => exact h

/-- An input that a stream operation's result is stored over still holds values of its port. -/
theorem resultStore_fits {s : State} (h : s.inp.fits s.params = true) (i : Instr) :
    (resultStore s i).inp.fits s.params = true := by
  obtain ⟨htd, hbs, hsin, hibuf⟩ := InPorts.fits_iff.mp h
  cases i with
  | encs =>
    obtain ⟨honly, -, hwf, -⟩ := State.storeBytes_spec s s.place.obufAt (encodeStream s.inp.sin).2
    rw [resultStore, honly]
    exact InPorts.fits_iff.mpr ⟨htd, hbs, hsin, hwf hibuf⟩
  | decs =>
    obtain ⟨honly, -, hfits, -⟩ := State.storeSamples_spec s s.place.soutAt (decodeStream s.params s.inp.ibuf).2
    rw [resultStore, honly]
    exact InPorts.fits_iff.mpr ⟨htd, hbs, hfits hsin, hibuf⟩
  | _ => exact h

/-- The state an operation completes in, before the host's turn, is well formed. -/
theorem exec_keeps_wf {i : Instr} {s t : State} (h : exec i s = .next t) (hs : s.wf = true) : t.wf = true := by
  obtain ⟨hlegal, hinp, -, -, hidle⟩ := State.wf_iff.mp hs
  rw [exec_next h, State.wf_iff]
  simp only [State.complete_params, State.complete_inp, State.complete_out, State.complete_seq, State.withSeq_params,
    State.withSeq_inp, State.withSeq_seq, resultStore_params]
  exact ⟨hlegal, resultStore_fits hinp i, resultPorts_fits s i, resultPorts_coherent s i, resultSeq_idle hidle i⟩

/-- Settles O8: a step is an operation, which keeps the state well formed, and then the host's turn, which does too. -/
theorem stepKeepsStateWellFormed : Obligations.StepKeepsStateWellFormed := fun s u hs h => by
  obtain ⟨i, t, -, hexec, -, hturn⟩ := step_next_cases h
  exact hostTurn_keeps_wf hturn (exec_keeps_wf hexec hs)

end Sys2Proof.Machine

/-! PROOFS. The statements of family 10_state: what each operation and each step leaves unchanged (R16, R17, R21, R23, R36), which
inputs bear on an outcome (R15), and the state after reset (R24). -/

namespace Sys2Proof.Machine

/-! ### Reading an output port (R17) -/

theorem readOut_of_value {s : State} {p : OutPort} {v : Value} (h : s.out.value p = some v) : readOut s p = .ok v := by
  rw [readOut, h]

theorem readOut_of_value_none {s : State} {p : OutPort} (h : s.out.value p = none) :
    readOut s p = .error .undrivenRead := by
  rw [readOut, h]

theorem readOut_of_undriven {s : State} (h : s.out = OutPorts.undriven) (p : OutPort) :
    readOut s p = .error .undrivenRead :=
  readOut_of_value_none (by rw [h, OutPorts.value_undriven])

/-- After an operation exactly the ports it drives hold a value. -/
theorem exec_value_isSome {i : Instr} {s t : State} (h : exec i s = .next t) (p : OutPort) :
    (t.out.value p).isSome = opDrives i p := by
  rw [exec_next h, State.complete_out, resultPorts_value_isSome]

theorem exec_value_eq_none {i : Instr} {s t : State} (h : exec i s = .next t) (p : OutPort) (hp : opDrives i p = false) :
    t.out.value p = none :=
  Option.isNone_iff_eq_none.mp (Option.isSome_eq_false_iff.mp ((exec_value_isSome h p).trans hp))

/-! ### When an operation is refused (R97, R99) -/

/-- Why operation `i` is refused on the inputs of `s`, or `none` where it completes. -/
def opRefusal (s : State) : Instr → Option Refusal
  | .enc => none
  | .dec => none
  | .cvtHS => if s.params.hasCvt then none else some .cvtAbsent
  | .cvtSH => if s.params.hasCvt then none else some .cvtAbsent
  | .encs => streamRefusal s s.place.sinAt s.obufRegion s.inp.sin.length
  | .decs => streamRefusal s s.ibufRegion s.place.soutAt s.inp.ibuf.recordCount

/-- An operation is refused for its reason, or completes with its results: it has no third outcome. -/
theorem exec_eq (i : Instr) (s : State) :
    exec i s = (opRefusal s i).elim
      (.next (((resultStore s i).withSeq (resultSeq s i)).complete (resultPorts s i))) .refused := by
  cases i with
  | enc => rfl
  | dec => rfl
  | cvtHS => rw [exec_cvtHS, opRefusal]; split <;> rfl
  | cvtSH => rw [exec_cvtSH, opRefusal]; split <;> rfl
  | encs => rw [exec_encs, opRefusal]; cases streamRefusal s s.place.sinAt s.obufRegion s.inp.sin.length <;> rfl
  | decs => rw [exec_decs, opRefusal]; cases streamRefusal s s.ibufRegion s.place.soutAt s.inp.ibuf.recordCount <;> rfl

theorem exec_eq_refused_iff (i : Instr) (s : State) (r : Refusal) : exec i s = .refused r ↔ opRefusal s i = some r := by
  rw [exec_eq]
  cases opRefusal s i <;> simp

theorem exec_completes_iff (i : Instr) (s : State) : (∃ t, exec i s = .next t) ↔ opRefusal s i = none := by
  rw [exec_eq]
  cases opRefusal s i <;> simp

/-! ### The outcome depends on the inputs alone (R15, R62, R108) -/

theorem streamRefusal_congr {s s' : State} (hp : s.params = s'.params) (a b : Region) (n : Nat) :
    streamRefusal s a b n = streamRefusal s' a b n := by
  rw [streamRefusal, streamRefusal, hp]

theorem opRefusal_congr {s s' : State} (hp : s.params = s'.params) (hi : s.inp = s'.inp) (hpl : s.place = s'.place)
    (i : Instr) : opRefusal s i = opRefusal s' i := by
  cases i <;> simp only [opRefusal, streamRefusal_congr hp, State.obufRegion, State.ibufRegion, hp, hi, hpl]

theorem resultPorts_congr {s s' : State} (hp : s.params = s'.params) (hi : s.inp = s'.inp) (i : Instr) :
    resultPorts s i = resultPorts s' i := by
  cases i <;> simp only [resultPorts, State.sampleIn, hp, hi]

/-- Settles O27: the refusal and the result are functions of the parameters, the inputs and the placement. -/
theorem outcomeDependsOnInputsAlone : Obligations.OutcomeDependsOnInputsAlone := fun i s s' hp hi hpl => by
  have hrefusal := opRefusal_congr hp hi hpl i
  constructor
  · intro t ht
    obtain ⟨t', ht'⟩ := (exec_completes_iff i s').mpr (hrefusal ▸ (exec_completes_iff i s).mp ⟨t, ht⟩)
    refine ⟨t', ht', ?_⟩
    rw [exec_next ht, exec_next ht', State.complete_out, State.complete_out, resultPorts_congr hp hi]
  · intro r hr
    rwa [exec_eq_refused_iff, ← hrefusal, ← exec_eq_refused_iff]

/-- Settles O26: the ports with a value are exactly the driven ones, and a read follows the value. -/
theorem onlyDrivenPortsCanBeRead : Obligations.OnlyDrivenPortsCanBeRead := fun i s t p h => by
  constructor
  · intro hp
    obtain ⟨v, hv⟩ := Option.isSome_iff_exists.mp ((exec_value_isSome h p).trans hp)
    exact ⟨v, readOut_of_value hv⟩
  · exact fun hp => readOut_of_value_none (exec_value_eq_none h p hp)

/-! ### The step and its operation (R14, R18, R19) -/

theorem step_of_exec_next {s t : State} {i : Instr} (hop : decode s.inp.op = .ok i) (h : exec i s = .next t) :
    step s = settleHost s.seq.busy i t := by
  simp only [step, hop, h]

theorem step_of_exec_refused {s : State} {i : Instr} {r : Refusal} (hop : decode s.inp.op = .ok i)
    (h : exec i s = .refused r) : step s = .refused r := by
  simp only [step, hop, h]

/-- Settles O2: the operation is run first, and its completion is settled with the host. -/
theorem stepRunsSelectedOperation : Obligations.StepRunsSelectedOperation := fun s i hop => by
  refine ⟨fun hidle t ht => ?_, fun hidle hhost => ?_, fun hbusy t ht => ?_, fun r hr => ?_⟩
  · rw [step_of_exec_next hop ht, hidle]; rfl
  · exact step_of_idle ((decode_eq_ok_iff _ _).mp hop) hidle hhost
  · rw [step_of_exec_next hop ht, hbusy]; rfl
  · exact step_of_exec_refused hop hr

/-! ### Reset (R24, R108) -/

/-- Settles O6: no port of the undriven outputs can be read, and reset leaves those. -/
theorem resetLeavesIdleAndUndriven : Obligations.ResetLeavesIdleAndUndriven :=
  ⟨rfl, readOut_of_undriven rfl, rfl, rfl, rfl, fun s => ⟨rfl, readOut_of_undriven s.assertReset_out, rfl, rfl, rfl⟩⟩

/-- Settles O7: this hardware's parameters are legal (R7), zero fits every port, and nothing is driven or in progress. -/
theorem resetIsWellFormed : Obligations.ResetIsWellFormed :=
  State.wf_iff.mpr ⟨by decide, InPorts.fits_iff.mpr ⟨by decide, by decide, rfl, rfl⟩, rfl, rfl, rfl⟩

/-! ### What the operations leave unchanged (R16, R17, R23, R36) -/

/-- A datapath operation that completes replaces the output ports and nothing else. -/
theorem exec_next_of_datapath {i : Instr} {s t : State} (hi : i = .enc ∨ i = .dec ∨ i = .cvtHS ∨ i = .cvtSH)
    (h : exec i s = .next t) : t = s.complete (resultPorts s i) := by
  rw [exec_next h]
  obtain rfl | rfl | rfl | rfl := hi <;> rfl

/-- Settles O23: the state after a datapath operation is the old one with other output ports. -/
theorem datapathOperationsFrame : Obligations.DatapathOperationsFrame := fun i s t hi h => by
  have hundriven := exec_value_eq_none h
  have ht := exec_next_of_datapath hi h
  subst ht
  exact ⟨rfl, rfl, rfl, rfl, rfl, rfl, fun _ => rfl, hundriven⟩

theorem Buffer.byte?_eq_none {B : Buffer} {off : Nat} (h : B.len ≤ off) : B.byte? off = none :=
  if_neg (by omega)

/-- The region ENCS writes is the buffer it builds, placed at the base of `obuf` (R33). -/
theorem obufRegion_eq_encodeStream (s : State) :
    s.obufRegion = { base := s.place.obufAt, size := (encodeStream s.inp.sin).2.len } := by
  obtain ⟨-, hlen, -, -⟩ := encodeStream_spec s.inp.sin
  rw [State.obufRegion, hlen]

/-- Settles O24: ENCS drives the encoded buffer and stores it by address, over `ibuf` alone. -/
theorem encsFrame : Obligations.EncsFrame := fun s t h => by
  have hundriven := exec_value_eq_none h
  obtain ⟨hseq, hlen, hwf, -⟩ := encodeStream_spec s.inp.sin
  obtain ⟨honly, hibufLen, -, hapart, hbytes⟩ := State.storeBytes_spec s s.place.obufAt (encodeStream s.inp.sin).2
  rw [← obufRegion_eq_encodeStream] at hapart
  rw [hlen] at hbytes
  have ht := exec_next h
  simp only [resultStore, resultSeq, hseq] at ht
  subst ht
  refine ⟨by simp, honly, by simp, by simp, by simp, rfl, hibufLen, fun hd => (congrArg State.inp (hapart hd) :),
    ⟨_, rfl, hwf, fun off hoff => Buffer.byte?_eq_none (hlen ▸ hoff), hbytes⟩, hundriven⟩

/-- No whole record decodes to no sample (R74). -/
theorem decodeStream_eq_nil {p : Params} {B : Buffer} (h : B.len < 6) : (decodeStream p B).2 = [] := by
  have hcount : B.recordCount = 0 := Nat.div_eq_of_lt h
  rw [decodeStream_spec, hcount]
  rfl

theorem overlaps_eq_false_iff (a b : Region) : a.overlaps b = false ↔ ¬ ∃ x, a.holds x ∧ b.holds x := by
  rw [← Bool.not_eq_true, overlaps_iff]
  rfl

/-- Settles O25: DECS drives the decoded samples, and stores them over `sin` alone, where there are any and `sout` overlaps it. -/
theorem decsFrame : Obligations.DecsFrame := fun s t h => by
  have hundriven := exec_value_eq_none h
  have hseq := congrArg Prod.fst (decodeStream_spec s.params s.inp.ibuf)
  obtain ⟨honly, hsinLen, -, hapart⟩ := State.storeSamples_spec s s.place.soutAt (decodeStream s.params s.inp.ibuf).2
  have ht := exec_next h
  simp only [resultStore, resultSeq, hseq] at ht
  subst ht
  refine ⟨by simp, honly, by simp, by simp, rfl, hsinLen, fun hclear => ?_, fun off => ?_, hundriven⟩
  · have hsame := hapart (hclear.imp decodeStream_eq_nil (overlaps_eq_false_iff _ _).mpr)
    exact ⟨(congrArg State.inp hsame :), (congrArg State.draws hsame :)⟩
  · exact (congrArg (fun f : InPorts => f.ibuf.byte? off) honly :)

/-! ### What a step leaves unchanged (R21, R36) -/

/-- A result stored in host memory reaches no input but `sin` and `ibuf`. -/
theorem resultStore_inp (s : State) (i : Instr) :
    (resultStore s i).inp = { s.inp with sin := (resultStore s i).inp.sin, ibuf := (resultStore s i).inp.ibuf } := by
  cases i with
  | encs =>
    obtain ⟨honly, -⟩ := State.storeBytes_spec s s.place.obufAt (encodeStream s.inp.sin).2
    rw [resultStore, honly]
  | decs =>
    obtain ⟨honly, -⟩ := State.storeSamples_spec s s.place.soutAt (decodeStream s.params s.inp.ibuf).2
    rw [resultStore, honly]
  | _ => rfl

/-- Only ENCS stores over `ibuf`, and only where `obuf` overlaps it. -/
theorem resultStore_ibuf_ne {s : State} {i : Instr} (h : (resultStore s i).inp.ibuf ≠ s.inp.ibuf) :
    i = .encs ∧ s.ibufRegion.overlaps s.obufRegion = true := by
  cases i with
  | encs =>
    obtain ⟨-, -, -, hapart, -⟩ := State.storeBytes_spec s s.place.obufAt (encodeStream s.inp.sin).2
    rw [← obufRegion_eq_encodeStream] at hapart
    refine ⟨rfl, Bool.of_not_eq_false fun hd => h ?_⟩
    rw [resultStore, hapart hd]
  | decs =>
    obtain ⟨honly, -⟩ := State.storeSamples_spec s s.place.soutAt (decodeStream s.params s.inp.ibuf).2
    exact absurd (congrArg InPorts.ibuf honly) h
  | _ => exact absurd rfl h

/-- Only DECS stores over `sin`, and only where `sout` overlaps it. -/
theorem resultStore_sin_ne {s : State} {i : Instr} (h : (resultStore s i).inp.sin ≠ s.inp.sin) :
    i = .decs ∧ s.place.sinAt.overlaps s.place.soutAt = true := by
  cases i with
  | encs =>
    obtain ⟨honly, -⟩ := State.storeBytes_spec s s.place.obufAt (encodeStream s.inp.sin).2
    exact absurd (congrArg InPorts.sin honly) h
  | decs =>
    obtain ⟨-, -, -, hapart⟩ := State.storeSamples_spec s s.place.soutAt (decodeStream s.params s.inp.ibuf).2
    refine ⟨rfl, Bool.of_not_eq_false fun hd => h ?_⟩
    rw [resultStore, hapart (.inr hd)]
  | _ => exact absurd rfl h

/-- The parameters of a state and the turns its host has left are these. -/
def State.hasParamsAndHost (p : Params) (turns : List Turn) (s : State) : Prop := s.params = p ∧ s.host = turns

/-- The host's turn is used up, and changes no parameter. -/
theorem hostTurn_params_host {i : Instr} {s u : State} (h : hostTurn i s = .next u) :
    u.params = s.params ∧ u.host = s.host.tail := by
  obtain ⟨hnone, rfl⟩ | ⟨t, rest, v, hhost, hduring, rfl⟩ := hostTurn_next_cases h
  · exact ⟨rfl, by rw [hnone, List.tail_nil]⟩
  · have hv : v.hasParamsAndHost s.params rest :=
      duringOp_invariant (P := State.hasParamsAndHost s.params rest) (fun _ _ hs => hs) i hduring ⟨rfl, rfl⟩
    rw [hhost, List.tail_cons]
    exact afterOp_invariant (P := State.hasParamsAndHost s.params rest) (fun _ _ hs => hs) (fun _ hs => hs) hv

/-- Settles O9: neither the operation nor the turn changes a parameter, and without a turn the inputs are as the operation's store
leaves them. -/
theorem stepKeepsParametersAndInputs : Obligations.StepKeepsParametersAndInputs := fun s u h => by
  obtain ⟨i, t, hop, hexec, -, hturn⟩ := step_next_cases h
  obtain ⟨hparams, hhost⟩ := hostTurn_params_host hturn
  have ht := exec_next hexec
  subst ht
  refine ⟨by simpa using hparams, by simpa using hhost, fun hnone => ?_⟩
  rw [hostTurn_of_idle (by simpa using hnone)] at hturn
  cases hturn
  obtain ⟨hsinLen, hibufLen⟩ := resultStore_lengths s i
  refine ⟨by simp, resultStore_inp s i, hsinLen, hibufLen, fun hne => ?_, fun hne => ?_⟩
  · obtain ⟨rfl, hover⟩ := resultStore_ibuf_ne hne
    exact ⟨hop, hover⟩
  · obtain ⟨rfl, hover⟩ := resultStore_sin_ne hne
    exact ⟨hop, hover⟩

end Sys2Proof.Machine

/-! PROOFS. The statements of family 20_memory: records as words and trailing bytes (R27, R31), when a stream operation is refused
(R37, R66, R75, R99), and who may touch an operation's memory (R36, R105, R111). -/

namespace Sys2Proof.Machine

/-! ### When a stream operation is refused (R37, R66, R75, R99) -/

/-- The stream guard in the spec's own terms: a shared address first, then a count above a bounded `MAX_N`. -/
theorem streamRefusal_eq_some_iff_shared (s : State) (a b : Region) (n : Nat) (r : Refusal) :
    streamRefusal s a b n = some r ↔
      ((∃ x, a.holds x ∧ b.holds x) ∧ r = .bufferOverlap) ∨
      ((¬ ∃ x, a.holds x ∧ b.holds x) ∧ (∃ k, s.params.maxN = some k ∧ k < n) ∧ r = .streamTooLong) := by
  rw [streamRefusal_eq_some_iff, overlaps_eq_false_iff, exceedsMax_iff, overlaps_iff]
  rfl

/-- Settles O19: the stream guard between the memory of `sin` and the output region. -/
theorem encsRefusedOnOverlapOrLength : Obligations.EncsRefusedOnOverlapOrLength := fun s r =>
  (exec_eq_refused_iff .encs s r).trans (streamRefusal_eq_some_iff_shared s s.place.sinAt s.obufRegion s.inp.sin.length r)

/-- Settles O22: the stream guard between the input buffer and the memory of `sout`. -/
theorem decsRefusedOnOverlapOrLength : Obligations.DecsRefusedOnOverlapOrLength := fun s r => by
  have hguard := streamRefusal_eq_some_iff_shared s s.ibufRegion s.place.soutAt s.inp.ibuf.recordCount r
  simp only [Region.holds, State.ibufRegion, and_assoc] at hguard
  exact (exec_eq_refused_iff .decs s r).trans hguard

theorem opRefusal_eq_none_iff (s : State) (i : Instr) : opRefusal s i = none ↔ opReady s i = true := by
  cases i <;>
    simp [opRefusal, opReady, WellFormed, streamOverlaps, streamExceeds, streamRefusal_eq_none_iff]

/-- An operation that is ready completes with its results. -/
theorem exec_of_opReady {s : State} {i : Instr} (h : opReady s i = true) :
    exec i s = .next (((resultStore s i).withSeq (resultSeq s i)).complete (resultPorts s i)) := by
  rw [exec_eq, (opRefusal_eq_none_iff s i).mpr h]
  rfl

/-! ### Trailing bytes (R31) -/

/-- A whole record depends on its own six bytes alone. -/
theorem Buffer.recordAt_congr {B C : Buffer} {i : Nat} (hB : 6 * i + 6 ≤ B.len) (hC : 6 * i + 6 ≤ C.len)
    (h : ∀ off, off < 6 * i + 6 → B.byte off = C.byte off) : B.recordAt i = C.recordAt i := by
  have hbyte : ∀ k, k < 6 → B.byte (6 * i + k) = C.byte (6 * i + k) := fun k hk => h _ (by omega)
  rw [Buffer.recordAt_eq hB, Buffer.recordAt_eq hC, hbyte 1 (by omega), hbyte 2 (by omega), hbyte 3 (by omega),
    hbyte 4 (by omega), hbyte 5 (by omega), h (6 * i) (by omega)]

/-- What DECS builds depends on the whole records alone. -/
theorem decodeStream_congr (p : Params) {B C : Buffer} (hcount : B.recordCount = C.recordCount)
    (h : ∀ off, off < 6 * B.recordCount → B.byte off = C.byte off) : decodeStream p B = decodeStream p C := by
  have hrecord : ∀ j, j < C.recordCount → B.recordAt j = C.recordAt j := fun j hj =>
    Buffer.recordAt_congr (by unfold Buffer.recordCount at *; omega) (by unfold Buffer.recordCount at *; omega)
      fun off hoff => h off (by omega)
  rw [decodeStream_spec, decodeStream_spec, hcount]
  congr 1
  exact List.map_congr_left fun j hj => by rw [hrecord j (List.mem_range.mp hj)]

/-- Settles O21: both operations complete, and the samples decoded depend on the whole records alone. -/
theorem trailingBytesHaveNoEffect : Obligations.TrailingBytesHaveNoEffect := fun s s' hp hcount hbytes hs hs' => by
  have hstream := decodeStream_congr s.params hcount hbytes
  refine ⟨_, _, exec_of_opReady hs, exec_of_opReady hs', ?_⟩
  rw [State.complete_out, State.complete_out, resultPorts, resultPorts, ← hp, hstream]

/-! ### The words of a record (R27) -/

theorem Buffer.memRead_two {B : Buffer} {off : Nat} (h : off + 2 ≤ B.len) :
    B.memRead off 2 = some ((B.byte off).toNat + 2 ^ 8 * (B.byte (off + 1)).toNat) := by
  simp [Buffer.memRead, h, leValue]

theorem Rec.toNat_w0_ofBytes (b0 b1 b2 b3 b4 b5 : Byte) :
    (Rec.w0 (Rec.ofBytes b0 b1 b2 b3 b4 b5)).toNat = b0.toNat + 2 ^ 8 * b1.toNat := by
  have h0 := b0.isLt; have h1 := b1.isLt
  simp only [Rec.w0, BitVec.extractLsb'_toNat, Rec.toNat_ofBytes, Nat.shiftRight_eq_div_pow]
  omega

theorem Rec.toNat_hx_ofBytes (b0 b1 b2 b3 b4 b5 : Byte) :
    (Rec.hx (Rec.ofBytes b0 b1 b2 b3 b4 b5)).toNat = b2.toNat + 2 ^ 8 * b3.toNat := by
  have h0 := b0.isLt; have h1 := b1.isLt; have h2 := b2.isLt; have h3 := b3.isLt
  simp only [Rec.hx, BitVec.extractLsb'_toNat, Rec.toNat_ofBytes, Nat.shiftRight_eq_div_pow]
  omega

theorem Rec.toNat_hy_ofBytes (b0 b1 b2 b3 b4 b5 : Byte) :
    (Rec.hy (Rec.ofBytes b0 b1 b2 b3 b4 b5)).toNat = b4.toNat + 2 ^ 8 * b5.toNat := by
  have h0 := b0.isLt; have h1 := b1.isLt; have h2 := b2.isLt; have h3 := b3.isLt; have h4 := b4.isLt; have h5 := b5.isLt
  simp only [Rec.hy, BitVec.extractLsb'_toNat, Rec.toNat_ofBytes, Nat.shiftRight_eq_div_pow]
  omega

/-- Settles O28: a record is its six bytes, and each word two of them, the lower-offset byte in the low bits. -/
theorem recordWordsAreLittleEndian : Obligations.RecordWordsAreLittleEndian := fun B i h => by
  rw [Buffer.recordAt_eq h, Rec.toNat_w0_ofBytes, Rec.toNat_hx_ofBytes, Rec.toNat_hy_ofBytes]
  exact ⟨Buffer.memRead_two (by omega), Buffer.memRead_two (by omega), Buffer.memRead_two (by omega),
    fun _ hoff => Buffer.memRead_two hoff⟩

/-! ### Touching the memory of the operation in progress (R36, R111) -/

/-- Settles O49: the operation's memory is still where it was when the host gets to the event, so the event breaks a duty. -/
theorem touchingOperationsMemoryIsRefused : Obligations.TouchingOperationsMemoryIsRefused :=
  fun s t u i turn rest before after e hop hexec hhost hduring hbefore htouch => by
    have hmem : opMemory i u = opMemory i s := by rw [opMemory_duringOp hbefore, opMemory_next hexec]
    have hbreak : breaksDuty i u e = true := by
      rw [breaksDuty, hmem, conflicts_of_touchesForbidden htouch, Bool.or_true]
    have hnone := duringOp_eq_none_of_break (after := after) hbefore hbreak
    exact step_of_brokenTurn hop hexec hhost (hduring ▸ hnone)

/-- A read or write of host memory or of an output port, as against a drive, a start or a reset. -/
def HostEvent.isAccess : HostEvent → Bool
  | .drive _ => false
  | .readOutput _ => true
  | .readMemory _ => true
  | .writeMemory _ => true
  | .startNext => false
  | .assertReset => false

theorem eventEffect_of_isAccess {e : HostEvent} (he : e.isAccess = true) (s : State) : eventEffect s e = s := by
  cases e with
  | drive d => cases he
  | _ => rfl

/-- An access touches no address but those it reads or writes in the spec's own terms. -/
theorem HostEvent.eventWritesAt_iff {e : HostEvent} (he : e.isAccess = true) (s : State) (x : Nat) :
    eventWritesAt s e x ↔ ∃ a ∈ (e.memory s).writes, a.holds x := by
  cases e with
  | readOutput p => simp [eventWritesAt, HostEvent.memory]
  | readMemory r => simp [eventWritesAt, HostEvent.memory]
  | writeMemory r => simp [eventWritesAt, HostEvent.memory]
  | _ => cases he

theorem HostEvent.eventReadsAt_iff {e : HostEvent} (he : e.isAccess = true) (s : State) (x : Nat) :
    eventReadsAt s e x ↔ ∃ a ∈ (e.memory s).reads, a.holds x := by
  cases e with
  | readOutput p => cases p <;> simp [eventReadsAt, HostEvent.memory, OutPort.memory]
  | readMemory r => simp [eventReadsAt, HostEvent.memory]
  | writeMemory r => simp [eventReadsAt, HostEvent.memory]
  | _ => cases he

/-- An access conflicts with an operation's memory exactly when it touches it as R36 forbids. -/
theorem touchesForbidden_iff_conflicts {e : HostEvent} (he : e.isAccess = true) (s u : State) (i : Instr) :
    touchesForbidden s i u e ↔ (e.memory u).conflicts (opMemory i s) = true := by
  simp only [touchesForbidden, MemUse.conflicts_iff, opReadsAt_iff, opWritesAt_iff, HostEvent.eventWritesAt_iff he,
    HostEvent.eventReadsAt_iff he]

/-- Accesses that break no duty leave the state as it is. -/
theorem duringOp_of_accesses {i : Instr} {s : State} :
    ∀ {es : List HostEvent}, (∀ e ∈ es, e.isAccess = true ∧ breaksDuty i s e = false) → duringOp i es s = some s
  | [], _ => rfl
  | e :: rest, h => by
    obtain ⟨⟨haccess, hkept⟩, hrest⟩ := List.forall_mem_cons.mp h
    rw [duringOp, hkept, if_neg Bool.false_ne_true, eventEffect_of_isAccess haccess]
    exact duringOp_of_accesses hrest

theorem exec_host {i : Instr} {s t : State} (h : exec i s = .next t) : t.host = s.host := by
  rw [exec_next h]
  simp

/-- A turn that breaks no duty takes its effect once the operation completes. -/
theorem hostTurn_of_duringOp {i : Instr} {s u : State} {turn : Turn} {rest : List Turn} (hhost : s.host = turn :: rest)
    (h : duringOp i turn.during (s.withHost rest) = some u) : hostTurn i s = .next (afterOp turn.after u) := by
  simp only [hostTurn, hhost, h]

/-- Settles O50: each event is an access clear of the operation's memory, so the turn leaves the state the operation left. -/
theorem clearMemoryAccessIsNoBrokenDuty : Obligations.ClearMemoryAccessIsNoBrokenDuty :=
  fun s t i turn rest hop hidle hhost hafter hexec hevents => by
    have hduring : duringOp i turn.during (t.withHost rest) = some (t.withHost rest) :=
      duringOp_of_accesses fun e he => by
        obtain ⟨hform, hclear⟩ := hevents e he
        have hports : e.isAccess = true ∧ breaksPortDuty i (t.withHost rest) e = false := by
          obtain ⟨r, rfl⟩ | ⟨r, rfl⟩ | ⟨p, rfl, hp⟩ := hform
          · exact ⟨rfl, rfl⟩
          · exact ⟨rfl, rfl⟩
          · exact ⟨rfl, hp⟩
        obtain ⟨haccess, hport⟩ := hports
        rw [touchesForbidden_iff_conflicts haccess, Bool.not_eq_true] at hclear
        refine ⟨haccess, ?_⟩
        rw [breaksDuty, hport, HostEvent.memory_next hexec, opMemory_next hexec, hclear, Bool.or_false]
    rw [step_of_exec_next (hop ▸ decode_encode i) hexec, hidle]
    exact (hostTurn_of_duringOp ((exec_host hexec).trans hhost) hduring).trans (by rw [hafter]; rfl)

/-! ### Operations of two instances at the same time (R36, R99, R105) -/

theorem clash_comm (a b : State) : clash a b = clash b a := by
  rw [clash, clash, MemUse.conflicts_comm, Bool.or_assoc, Bool.or_assoc, Bool.or_comm (eventsConflict _ _ a)]

theorem clash_of_ops {a b : State} {i j : Instr} (ha : a.inp.op = encode i) (hb : b.inp.op = encode j) :
    clash a b = ((opMemory i a).conflicts (opMemory j b) || eventsConflict (opMemory j b) a.nextEvents a ||
      eventsConflict (opMemory i a) b.nextEvents b) := by
  rw [clash, State.nextMemory_of_op ha, State.nextMemory_of_op hb]

theorem anyClash_pair (a b : State) : anyClash [a, b] = clash a b := by
  simp [anyClash]

/-- The step of an operation that is ready is refused for a broken duty, or completes. -/
theorem step_of_opReady {s : State} {i : Instr} (hop : s.inp.op = encode i) (h : opReady s i = true) :
    step s = .refused .hostDutyBroken ∨ ∃ t, step s = .next t := by
  rw [step_of_exec_next (hop ▸ decode_encode i) (exec_of_opReady h)]
  unfold settleHost
  split
  · exact .inl rfl
  · unfold hostTurn
    split
    · exact .inr ⟨_, rfl⟩
    · split
      · exact .inl rfl
      · exact .inr ⟨_, rfl⟩

/-- Where each step started completes or is refused for a broken duty, so does the whole list, step by step. -/
theorem stepEach_of_steps :
    ∀ {sys : List (Bool × State)},
      (∀ p ∈ sys, p.1 = true → step p.2 = .refused .hostDutyBroken ∨ ∃ t, step p.2 = .next t) →
      stepEach sys = .refused .hostDutyBroken ∨ ∃ ts, stepEach sys = .next ts
  | [], _ => .inr ⟨[], rfl⟩
  | (starts, s) :: rest, h => by
    obtain ⟨hhead, hrest⟩ := List.forall_mem_cons.mp h
    have hown : (if starts then step s else .next s) = .refused .hostDutyBroken ∨
        ∃ t, (if starts then step s else .next s) = .next t := by
      cases starts with
      | true => exact hhead rfl
      | false => exact .inr ⟨s, rfl⟩
    obtain hs | ⟨t, hs⟩ := hown
    · exact .inl (by simp only [stepEach, hs])
    · obtain hr | ⟨ts, hr⟩ := stepEach_of_steps hrest
      · exact .inl (by simp only [stepEach, hs, hr])
      · exact .inr ⟨t :: ts, by simp only [stepEach, hs, hr]⟩

/-- Two operations that are ready and clash are refused together. -/
theorem stepTogether_of_clash {a b : State} {i j : Instr} (hopa : a.inp.op = encode i) (hopb : b.inp.op = encode j)
    (ha : opReady a i = true) (hb : opReady b j = true) (hclash : clash a b = true) :
    stepTogether [(true, a), (true, b)] = .refused .hostDutyBroken := by
  have heach := stepEach_of_steps (sys := [(true, a), (true, b)])
    (by simpa using ⟨step_of_opReady hopa ha, step_of_opReady hopb hb⟩)
  obtain hr | ⟨ts, hr⟩ := heach
  · exact stepTogether_of_stepEach_refused hr
  · simp [stepTogether, hr, anyClash_pair, hclash]

/-- Settles O48: a clash of the operations is one of the joint step, and without any clash each takes its own step. -/
theorem sharedOutputsClashSharedInputsDoNot : Obligations.SharedOutputsClashSharedInputsDoNot :=
  fun a b i j hopa hopb ha hb => by
    rw [operationsClash_iff, Bool.not_eq_true]
    constructor
    · intro hconf
      have hclash : clash a b = true := by rw [clash_of_ops hopa hopb, hconf]; rfl
      exact stepTogether_of_clash hopa hopb ha hb hclash
    · intro hconf heva hevb ta tb hta htb
      have hclash : clash a b = false := by rw [clash_of_ops hopa hopb, hconf, heva, hevb]; rfl
      have heach : stepEach [(true, a), (true, b)] = .next [ta, tb] := by simp [stepEach, hta, htb]
      exact (stepTogether_eq_next_iff _ _).mpr ⟨heach, (anyClash_pair a b).trans hclash⟩

/-! ### What a host does beside the operation of another block (R36, R105) -/

/-- An event in the midst of a turn that touches a use of host memory, at the state reached before it, is a conflict of the turn. -/
theorem eventsConflict_append_cons {m : MemUse} {e : HostEvent} {after : List HostEvent} :
    ∀ {before : List HostEvent} {s : State}, (e.memory (before.foldl eventEffect s)).conflicts m = true →
      eventsConflict m (before ++ e :: after) s = true
  | [], s, h => by
    rw [List.foldl_nil] at h
    rw [List.nil_append, eventsConflict, h, Bool.true_or]
  | d :: rest, s, h => by
    rw [List.cons_append, eventsConflict, eventsConflict_append_cons (before := rest) h, Bool.or_true]

/-- Settles O51: the event is one of the clashes of the joint step. -/
theorem touchingAnothersMemoryIsRefused : Obligations.TouchingAnothersMemoryIsRefused :=
  fun a b i j turn rest before after e hopa hopb ha hb hhost hduring htouch => by
    have hevents : a.nextEvents = before ++ e :: after := by simp only [State.nextEvents, hhost, hduring]
    have hconf : eventsConflict (opMemory j b) a.nextEvents a = true :=
      hevents ▸ eventsConflict_append_cons (conflicts_of_touchesForbidden htouch)
    have hclash : clash a b = true := by rw [clash_of_ops hopa hopb, hconf, Bool.or_true, Bool.true_or]
    exact ⟨stepTogether_of_clash hopa hopb ha hb hclash, stepTogether_of_clash hopb hopa hb ha (clash_comm a b ▸ hclash)⟩

/-! ### Decoding what was encoded (R36, R38, R76) -/

/-- A sample as it comes back from a record: the fields truncated and the coordinates quantised (R76). -/
def Sample.roundTrip (a : Sample) : Sample :=
  { td := a.td % 2048, bs := a.bs % 32, x := quantise a.x, y := quantise a.y }

/-- Widening to a port at least as wide as the field keeps the number. -/
theorem zextNat_of_le {k w : Nat} (h : k ≤ w) (v : BitVec k) : zextNat w v = v.toNat := by
  rw [zextNat, BitVec.toNat_setWidth_of_le h]

theorem Params.widths_of_legal {p : Params} (h : p.legal = true) : 11 ≤ p.tdW ∧ 6 ≤ p.bsW := by
  simp only [Params.legal, Bool.and_eq_true, decide_eq_true_eq] at h
  exact h.1

theorem decRec_encRec {p : Params} (hp : p.legal = true) (a : Sample) : decRec p (encRec a) = a.roundTrip := by
  obtain ⟨htd, hbs⟩ := Params.widths_of_legal hp
  simp only [decRec, encRec, Rec.td_pack, Rec.btn_pack, Rec.hx_pack, Rec.hy_pack, zextNat_of_le htd,
    zextNat_of_le (show 5 ≤ p.bsW by omega), BitVec.toNat_ofNat]
  rfl

/-- DECS of the very buffer ENCS built gives back each sample, truncated and quantised. -/
theorem decodeStream_encodeStream {p : Params} (hp : p.legal = true) (l : List Sample) :
    (decodeStream p (encodeStream l).2).2 = l.map Sample.roundTrip := by
  obtain ⟨-, hlen, -⟩ := encodeStream_spec l
  have hcount : (encodeStream l).2.recordCount = l.length := by rw [Buffer.recordCount, hlen]; omega
  rw [decodeStream_spec, hcount]
  refine List.ext_getElem (by simp) fun j _ hj => ?_
  rw [List.length_map] at hj
  simp [recordAt_encodeStream l hj, decRec_encRec hp]

/-- Canonical buffers of one length with the same bytes below it are one buffer. -/
theorem Buffer.ext_of_bytes {B C : Buffer} (hB : B.wf = true) (hC : C.wf = true) (hlen : B.len = C.len)
    (h : ∀ off, off < B.len → B.byte off = C.byte off) : B = C := by
  have hbytes : B.bytes = C.bytes := by
    rw [Buffer.bytes, Buffer.bytes, ← hlen]
    exact List.map_congr_left fun off hoff => h off (List.mem_range.mp hoff)
  rw [← Buffer.ofBytes_bytes hB, hbytes, Buffer.ofBytes_bytes hC]

/-- Bytes stored exactly over `ibuf` are what it then holds. -/
theorem State.storeBytes_ibuf_of_same_place {s : State} {B : Buffer} (hibuf : s.inp.ibuf.wf = true) (hB : B.wf = true)
    (hlen : s.inp.ibuf.len = B.len) : (s.storeBytes s.place.ibufAt B).inp.ibuf = B := by
  obtain ⟨-, hlen', hwf, -, hbytes⟩ := State.storeBytes_spec s s.place.ibufAt B
  refine Buffer.ext_of_bytes (hwf hibuf) hB (hlen'.trans hlen) fun off hoff => ?_
  rw [hbytes off (by omega), if_pos (by omega), Nat.add_sub_cancel_left]

/-- Driving another operation's code changes nothing that decides whether an operation is ready. -/
theorem opReady_drive_op (s : State) (v : OpCode) (i : Instr) : opReady (s.drive (.op v)) i = opReady s i := by
  cases i <;> rfl

/-- Settles O53: ENCS leaves its buffer in `ibuf`, and DECS decodes what was encoded there. -/
theorem decsSeesWhatEncsWrote : Obligations.DecsSeesWhatEncsWrote := fun s hwf hop hready hhost hplace hlen => by
  obtain ⟨hlegal, hinp, -, -, hidle⟩ := State.wf_iff.mp hwf
  obtain ⟨-, -, -, hibufWf⟩ := InPorts.fits_iff.mp hinp
  obtain ⟨-, hBlen, hBwf, -⟩ := encodeStream_spec s.inp.sin
  have hibuf : (resultStore s .encs).inp.ibuf = (encodeStream s.inp.sin).2 := by
    rw [resultStore, ← hplace]
    exact State.storeBytes_ibuf_of_same_place hibufWf hBwf (hlen.trans hBlen.symm)
  refine ⟨_, (step_of_idle hop hidle hhost).trans (exec_of_opReady hready), (congrArg some hibuf.symm :), fun hdecs => ?_⟩
  rw [← opReady_drive_op _ (encode .decs)] at hdecs
  refine ⟨_, (step_of_idle rfl ?_ ?_).trans (exec_of_opReady hdecs), ?_⟩
  · exact (resultSeq_idle hidle .encs :)
  · simpa using hhost
  · simp only [State.complete_out, resultPorts, OutPorts.ofSamples_sout, State.drive_inp, State.drive_params, Drive.onPorts,
      State.complete_inp, State.complete_params, State.withSeq_inp, State.withSeq_params, resultStore_params, hibuf,
      decodeStream_encodeStream hlegal]
    rfl

end Sys2Proof.Machine

/-! PROOFS. The statements of family 30_encoding: the operation codes (R43, R44, R97), the layout of a record (R45), and the two
pseudo-instructions, each over its expansion (R53, R55). -/

namespace Sys2Proof.Machine

/-! ### The operation codes (R43, R44) -/

/-- A table word selects what its operation select does on the port. -/
theorem decodeTableWord_of_decode {w : Nat} {i : Instr} (h : decode (opOfTableWord w) = .ok i) (nbits : Nat) :
    decodeTableWord nbits w = some i := by
  rw [decodeTableWord, h]

theorem decodeTableWord_of_reserved {w : Nat} {e : Rejection} (h : decode (opOfTableWord w) = .error e) (nbits : Nat) :
    decodeTableWord nbits w = none := by
  rw [decodeTableWord, h]

/-- Settles O1: the codes are those the encoder gives and the two that are left over, and a table word follows the port. -/
theorem selectCodesDecodeAsTabled : Obligations.SelectCodesDecodeAsTabled := by
  have h6 : decode 0b110#3 = .error (.reservedOp 0b110#3) := (decode_eq_error_iff _ _).mpr ⟨.inl rfl, rfl⟩
  have h7 : decode 0b111#3 = .error (.reservedOp 0b111#3) := (decode_eq_error_iff _ _).mpr ⟨.inr rfl, rfl⟩
  exact ⟨decode_encode .enc, decode_encode .dec, decode_encode .cvtHS, decode_encode .cvtSH, decode_encode .encs,
    decode_encode .decs, h6, h7,
    decodeTableWord_of_decode (decode_encode .enc) 8, decodeTableWord_of_decode (decode_encode .dec) 8,
    decodeTableWord_of_decode (decode_encode .cvtHS) 8, decodeTableWord_of_decode (decode_encode .cvtSH) 8,
    decodeTableWord_of_decode (decode_encode .encs) 8, decodeTableWord_of_decode (decode_encode .decs) 8,
    decodeTableWord_of_reserved h6 8, decodeTableWord_of_reserved h7 8⟩

/-! ### The reserved codes are refused (R44, R97) -/

/-- No operation has a reserved code for its own reason. -/
theorem opRefusal_ne_reservedOp (s : State) (i : Instr) : opRefusal s i ≠ some .reservedOp := by
  have hstream : ∀ a b n, streamRefusal s a b n ≠ some .reservedOp := fun a b n h => by
    simp [streamRefusal_eq_some_iff] at h
  cases i with
  | enc => simp [opRefusal]
  | dec => simp [opRefusal]
  | cvtHS => simp [opRefusal]
  | cvtSH => simp [opRefusal]
  | encs => exact hstream _ _ _
  | decs => exact hstream _ _ _

/-- After an operation the host can only break a duty. -/
theorem settleHost_refused {b : Bool} {i : Instr} {t : State} {r : Refusal} (h : settleHost b i t = .refused r) :
    r = .hostDutyBroken := by
  unfold settleHost hostTurn at h
  split at h
  · cases h; rfl
  · split at h
    · cases h
    · split at h <;> cases h
      rfl

/-- A step on an operation's code is never refused as reserved. -/
theorem step_ne_reservedOp_of_decode {s : State} {i : Instr} (hop : decode s.inp.op = .ok i) :
    step s ≠ .refused .reservedOp := by
  intro h
  cases hexec : exec i s with
  | next t =>
    rw [step_of_exec_next hop hexec] at h
    cases settleHost_refused h
  | fault f => cases f
  | refused r =>
    rw [step_of_exec_refused hop hexec] at h
    cases h
    exact opRefusal_ne_reservedOp s i ((exec_eq_refused_iff i s _).mp hexec)

/-- Settles O3: the decoder rejects exactly the two codes, and nothing after the decoder gives that reason. -/
theorem reservedCodesAreRefused : Obligations.ReservedCodesAreRefused := fun s => by
  constructor
  · intro h
    cases hop : decode s.inp.op with
    | ok i => exact absurd h (step_ne_reservedOp_of_decode hop)
    | error e => exact ((decode_eq_error_iff _ _).mp hop).1
  · intro h
    rw [step, (decode_eq_error_iff _ (.reservedOp s.inp.op)).mpr ⟨h, rfl⟩]

/-! ### The bytes of a record (R45) -/

/-- A slice of a slice is a slice of the whole. -/
theorem extractLsb'_extractLsb'_of_le {w start n off len : Nat} (x : BitVec w) (h : off + len ≤ n) :
    (x.extractLsb' start n).extractLsb' off len = x.extractLsb' (start + off) len := by
  ext k hk
  rw [BitVec.getElem_extractLsb', BitVec.getLsbD_extractLsb', BitVec.getElem_extractLsb', decide_eq_true (by omega),
    Bool.true_and, Nat.add_assoc]

theorem Rec.td_eq (r : Rec) : Rec.td r = r.extractLsb' 0 11 := extractLsb'_extractLsb'_of_le r (by decide)

theorem Rec.btn_eq (r : Rec) : Rec.btn r = r.extractLsb' 11 5 := extractLsb'_extractLsb'_of_le r (by decide)

/-- Byte `k` of a record lies in every slice of the record that holds its bits. -/
theorem Rec.byte_eq_extractLsb' (r : Rec) {k start n off : Nat} (h : off + 8 ≤ n) (hk : 8 * k = start + off) :
    Rec.byte r k = (r.extractLsb' start n).extractLsb' off 8 := by
  rw [extractLsb'_extractLsb'_of_le r h, Rec.byte, hk]

/-- Byte 1 holds two fields: the button bits above the three high bits of the time delta. -/
theorem Rec.byte_one (r : Rec) : Rec.byte r 1 = Rec.btn r ++ (Rec.td r).extractLsb' 8 3 := by
  have htd : (Rec.td r).extractLsb' 8 3 = r.extractLsb' 8 3 := by
    rw [Rec.td_eq, extractLsb'_extractLsb'_of_le r (by decide)]
  rw [htd, Rec.btn_eq, BitVec.extractLsb'_append_extractLsb'_eq_extractLsb' (show 11 = 8 + 3 from rfl), Rec.byte]

/-- Settles O13: a byte is a slice of the field that holds it; byte 1 alone is shared between two fields. -/
theorem recordBytesHoldTheirFields : Obligations.RecordBytesHoldTheirFields := fun r => by
  refine ⟨?_, Rec.byte_one r, Rec.byte_eq_extractLsb' r (by decide) rfl, Rec.byte_eq_extractLsb' r (by decide) rfl,
    Rec.byte_eq_extractLsb' r (by decide) rfl, Rec.byte_eq_extractLsb' r (by decide) rfl⟩
  rw [Rec.td_eq]
  exact Rec.byte_eq_extractLsb' r (by decide) rfl

/-! ### Running one line of a program (R53) -/

theorem driveSources_cons {env : Env} {p : InPort} {v : Var} {x : Value} {d : Drive} (hx : env.get v = some x)
    (hd : driveOf p x = some d) (rest : List (InPort × Var)) (s : State) :
    driveSources env ((p, v) :: rest) s = driveSources env rest (s.drive d) := by
  rw [driveSources, hx, Option.bind_some, hd]

theorem readResults_cons {s : State} {p : OutPort} {x : Value} (hx : s.out.value p = some x) (v : Var)
    (rest : List (OutPort × Var)) (env : Env) :
    readResults s ((p, v) :: rest) env = readResults s rest (env.set v x) := by
  rw [readResults, readOut_of_value hx]

/-- The sources of ENC put a sample on the four input ports. -/
theorem driveSources_sample {env : Env} {td bs x y : Var} {a : Sample} (htd : env.get td = some (.int a.td))
    (hbs : env.get bs = some (.int a.bs)) (hx : env.get x = some (.f32 a.x)) (hy : env.get y = some (.f32 a.y)) (s : State) :
    driveSources env [(.tdIn, td), (.bsIn, bs), (.xIn, x), (.yIn, y)] s =
      some ((((s.drive (.tdIn a.td)).drive (.bsIn a.bs)).drive (.xIn a.x)).drive (.yIn a.y)) := by
  rw [driveSources_cons htd rfl, driveSources_cons hbs rfl, driveSources_cons hx rfl, driveSources_cons hy rfl, driveSources]

/-- The results of DEC are read into the four fields of a sample variable. -/
theorem readResults_ofSample (s : State) (d : Sample) (n : Nat) (env : Env) :
    readResults (s.complete (OutPorts.ofSample d))
      [(.tdOut, ⟨n, some .td⟩), (.bsOut, ⟨n, some .bs⟩), (.xOut, ⟨n, some .x⟩), (.yOut, ⟨n, some .y⟩)] env =
      .ok (env.setSample n d) :=
  rfl

theorem runProgram_cons {l : Line} {env env' : Env} {s t : State} (h : runLine l env s = .done env' t)
    (rest : List Line) : runProgram (l :: rest) env s = runProgram rest env' t := by
  rw [runProgram, h]

/-- A block with parameters `p` between operations, whose host plans nothing but the program. -/
structure State.AtRest (p : Params) (s : State) : Prop where
  params : s.params = p
  idle : s.seq.busy = false
  host : s.host = []

theorem State.AtRest.drive {p : Params} {s : State} (h : s.AtRest p) (d : Drive) : (s.drive d).AtRest p :=
  ⟨h.params, h.idle, h.host⟩

/-- Driving the sources of a line leaves the block at rest. -/
theorem State.AtRest.driveSources {p : Params} {env : Env} {u : State} :
    ∀ {srcs : List (InPort × Var)} {s : State}, s.AtRest p → driveSources env srcs s = some u → u.AtRest p
  | [], _, hs, h => by cases h; exact hs
  | _ :: rest, _, hs, h => by
    rw [Machine.driveSources] at h
    split at h
    · cases h
    · exact (hs.drive _).driveSources h

/-- A line whose sources have values runs its operation, and reads the results from the ports the operation drove. -/
theorem runLine_of_exec {l : Line} {env env' : Env} {p : Params} {s u : State} (hs : s.AtRest p)
    (hsrc : driveSources env l.sources (s.drive (.op (encode l.instr))) = some u) (hop : u.inp.op = encode l.instr)
    (hexec : exec l.instr u = .next (u.complete (resultPorts u l.instr)))
    (hres : readResults (u.complete (resultPorts u l.instr)) l.results env = .ok env') :
    ∃ t, runLine l env s = .done env' t ∧ t.AtRest p := by
  have hu : u.AtRest p := (hs.drive _).driveSources hsrc
  have hstep : step u = .next (u.complete (resultPorts u l.instr)) := (step_of_idle hop hu.idle hu.host).trans hexec
  refine ⟨u.complete (resultPorts u l.instr), ?_, hu.params, hu.idle, hu.host⟩
  simp only [runLine, hsrc, hstep, hres]

/-- `CVT.H.S h, f` leaves the narrowed value in `h`. -/
theorem runLine_cvtHS {p : Params} {s : State} (hs : s.AtRest p) (hcvt : p.hasCvt = true) {env : Env} {f : Var} {v : F32}
    (hf : env.get f = some (.f32 v)) (h : Var) :
    ∃ t, runLine (.cvtHS h f) env s = .done (env.set h (.f16 (f32ToF16 v))) t ∧ t.AtRest p :=
  runLine_of_exec hs (driveSources_cons hf rfl _ _) rfl (if_pos (hs.params ▸ hcvt)) (readResults_cons rfl _ _ _)

/-- `CVT.S.H f, h` leaves the widened value in `f`. -/
theorem runLine_cvtSH {p : Params} {s : State} (hs : s.AtRest p) (hcvt : p.hasCvt = true) {env : Env} {h : Var} {v : F16}
    (hh : env.get h = some (.f16 v)) (f : Var) :
    ∃ t, runLine (.cvtSH f h) env s = .done (env.set f (.f32 (f16ToF32 v))) t ∧ t.AtRest p :=
  runLine_of_exec hs (driveSources_cons hh rfl _ _) rfl (if_pos (hs.params ▸ hcvt)) (readResults_cons rfl _ _ _)

/-- `ENC r, td, bs, x, y` leaves in `r` the record of the sample as the ports carry it. -/
theorem runLine_enc {p : Params} {s : State} (hs : s.AtRest p) {env : Env} {td bs x y : Var} {a : Sample}
    (htd : env.get td = some (.int a.td)) (hbs : env.get bs = some (.int a.bs)) (hx : env.get x = some (.f32 a.x))
    (hy : env.get y = some (.f32 a.y)) (r : Var) :
    ∃ t, runLine (.enc r td bs x y) env s = .done (env.set r (.record (encRec (a.clip p)))) t ∧ t.AtRest p := by
  obtain rfl := hs.params
  exact runLine_of_exec hs (driveSources_sample htd hbs hx hy _) rfl (exec_enc _) (readResults_cons rfl _ _ _)

/-- `DEC` into the four fields of a sample variable leaves there the sample of the record in `r`. -/
theorem runLine_dec {p : Params} {s : State} (hs : s.AtRest p) {env : Env} {r : Var} {v : Rec}
    (hr : env.get r = some (.record v)) (n : Nat) :
    ∃ t, runLine (.dec ⟨n, some .td⟩ ⟨n, some .bs⟩ ⟨n, some .x⟩ ⟨n, some .y⟩ r) env s =
      .done (env.setSample n (decRec p v)) t ∧ t.AtRest p := by
  obtain rfl := hs.params
  refine runLine_of_exec hs (driveSources_cons hr rfl _ _) rfl (exec_dec _) ?_
  exact readResults_ofSample _ (decRec s.params v) n env

/-! ### The pseudo-instructions (R55) -/

/-- Two lines that run one after the other are a program that ends as the second does. -/
theorem runProgram_pair {k l : Line} {env env' env'' : Env} {s t u : State} (hk : runLine k env s = .done env' t)
    (hl : runLine l env' t = .done env'' u) : runProgram [k, l] env s = .done env'' u := by
  rw [runProgram_cons hk, runProgram_cons hl, runProgram]

/-- A write to the fresh variable changes no variable that holds a value. -/
theorem Env.get_set_fresh {env : Env} {ls : List SourceLine} {w : Var} {z : Value} (h : env.get w = some z)
    (f : Option SampleField) (x : Value) : (env.set ⟨freshName env ls, f⟩ x).get w = some z := by
  have hlt := lt_freshName_of_get (ls := ls) h
  rw [Env.get_set_of_ne (by rintro rfl; exact lt_irrefl _ hlt), h]

/-- Settles O45: the first line leaves the narrowed value in the fresh variable, the second widens it into `f2`. -/
theorem quantProgramQuantises : Obligations.QuantProgramQuantises := fun f2 f1 v env s hf1 hcvt hidle hhost => by
  obtain ⟨t, hnarrow, ht⟩ := runLine_cvtHS ⟨rfl, hidle, hhost⟩ hcvt hf1 ⟨freshName env [.quant f2 f1], none⟩
  obtain ⟨u, hwiden, -⟩ := runLine_cvtSH ht hcvt (Env.get_set_self _ _ _) f2
  refine ⟨_, u, runProgram_pair hnarrow hwiden, Env.get_set_self _ _ _, fun w x hw hx => ?_⟩
  rw [Env.get_set_of_ne hw, Env.get_set_fresh hx]

/-- The four fields of a sample variable just written. -/
theorem Env.get_setSample (env : Env) (n : Nat) (a : Sample) :
    (env.setSample n a).get ⟨n, some .td⟩ = some (.int a.td) ∧ (env.setSample n a).get ⟨n, some .bs⟩ = some (.int a.bs) ∧
    (env.setSample n a).get ⟨n, some .x⟩ = some (.f32 a.x) ∧ (env.setSample n a).get ⟨n, some .y⟩ = some (.f32 a.y) := by
  simp [Env.setSample, Env.set, Env.get]

theorem Env.get_setSample_of_ne {env : Env} {n : Nat} {w : Var} (h : ∀ f, w ≠ ⟨n, some f⟩) (a : Sample) :
    (env.setSample n a).get w = env.get w := by
  rw [Env.setSample, Env.get_set_of_ne (h _), Env.get_set_of_ne (h _), Env.get_set_of_ne (h _), Env.get_set_of_ne (h _)]

/-- Ports of legal widths are wide enough for every bit a record keeps of a sample. -/
theorem Sample.roundTrip_clip {p : Params} (hp : p.legal = true) (a : Sample) : (a.clip p).roundTrip = a.roundTrip := by
  obtain ⟨htd, hbs⟩ := Params.widths_of_legal hp
  have h11 : 2048 ∣ 2 ^ p.tdW := Nat.pow_dvd_pow 2 htd
  have h5 : 32 ∣ 2 ^ p.bsW := Nat.pow_dvd_pow 2 (show 5 ≤ p.bsW by omega)
  simp only [Sample.roundTrip, Sample.clip, Nat.mod_mod_of_dvd _ h11, Nat.mod_mod_of_dvd _ h5]

/-- Settles O46: the first line leaves the record in the fresh variable, and its decoding is the round trip of the sample. -/
theorem roundtripProgramTruncatesAndQuantises : Obligations.RoundtripProgramTruncatesAndQuantises :=
  fun s2 s1 td bs x y env s htd hbs hx hy hlegal hidle hhost => by
    obtain ⟨t, henc, ht⟩ := runLine_enc (a := ⟨td, bs, x, y⟩) ⟨rfl, hidle, hhost⟩ htd hbs hx hy
      ⟨freshName env [.roundtrip s2 s1], none⟩
    obtain ⟨u, hdec, -⟩ := runLine_dec ht (Env.get_set_self _ _ _) s2
    rw [decRec_encRec hlegal, Sample.roundTrip_clip hlegal] at hdec
    obtain ⟨htd', hbs', hx', hy'⟩ := Env.get_setSample _ s2 (Sample.roundTrip ⟨td, bs, x, y⟩)
    refine ⟨_, u, runProgram_pair henc hdec, htd', hbs', hx', hy', fun w z hw hz => ?_⟩
    rw [Env.get_setSample_of_ne hw, Env.get_set_fresh hz]

end Sys2Proof.Machine

/-! PROOFS. The statements of family 40_encode: the fields of an encoded record (R56, R57, R58, R59) and the buffer ENCS writes (R64,
R65). -/

namespace Sys2Proof.Machine

/-! ### The fields of an encoded record (R56, R57, R59) -/

@[simp] theorem Rec.td_encRec (a : Sample) : Rec.td (encRec a) = BitVec.ofNat 11 a.td := Rec.td_pack _ _ _ _

@[simp] theorem Rec.btn_encRec (a : Sample) : Rec.btn (encRec a) = BitVec.ofNat 5 a.bs := Rec.btn_pack _ _ _ _

@[simp] theorem Rec.hx_encRec (a : Sample) : Rec.hx (encRec a) = f32ToF16 a.x := Rec.hx_pack _ _ _ _

@[simp] theorem Rec.hy_encRec (a : Sample) : Rec.hy (encRec a) = f32ToF16 a.y := Rec.hy_pack _ _ _ _

/-- A field of `w` bits takes a number modulo `2^w`. -/
theorem ofNat_congr_mod {w m n : Nat} (h : m % 2 ^ w = n % 2 ^ w) : BitVec.ofNat w m = BitVec.ofNat w n :=
  BitVec.eq_of_toNat_eq (by rw [BitVec.toNat_ofNat, BitVec.toNat_ofNat, h])

/-- A record depends on `td` through its low 11 bits and on `bs` through its low 5 bits alone. -/
theorem encRec_congr {a b : Sample} (htd : a.td % 2048 = b.td % 2048) (hbs : a.bs % 32 = b.bs % 32) (hx : a.x = b.x)
    (hy : a.y = b.y) : encRec a = encRec b := by
  rw [encRec, encRec, ofNat_congr_mod (w := 11) htd, ofNat_congr_mod (w := 5) hbs, hx, hy]

/-- Settles O11: the field is 11 bits wide, and the record depends on `td` through it alone. -/
theorem timeDeltaFieldIsLowElevenBits : Obligations.TimeDeltaFieldIsLowElevenBits := by
  have hfield : ∀ a : Sample, (Rec.td (encRec a)).toNat = a.td % 2048 := fun a => by
    rw [Rec.td_encRec, BitVec.toNat_ofNat]
  refine ⟨fun a => ⟨hfield a, ?_⟩, fun _ _ h => encRec_congr h rfl rfl rfl⟩
  exact (hfield a).trans (Nat.and_two_pow_sub_one_eq_mod a.td 11).symm

/-! ### The button field in either reading (R57) -/

/-- The two's-complement reading of a `w`-bit port differs from the unsigned one by a multiple of `2^w`, hence of 32. -/
theorem asSigned_emod_32 {w : Nat} (hw : 5 ≤ w) (v : Nat) : asSigned w v % 32 = (v : Int) % 32 := by
  have hdvd : (32 : Int) ∣ ((2 ^ w : Nat) : Int) := Int.natCast_dvd_natCast.mpr (Nat.pow_dvd_pow 2 hw)
  calc asSigned w v % 32
    _ = (v : Int).bmod (2 ^ w) % (2 ^ w : Nat) % 32 := by rw [asSigned, BitVec.toInt_ofNat', Int.emod_emod_of_dvd _ hdvd]
    _ = (v : Int) % 32 := by rw [Int.bmod_emod, Int.emod_emod_of_dvd _ hdvd]

/-- Settles O12: the field is 5 bits wide, and both readings of a port of at least 6 bits agree modulo 32. -/
theorem buttonFieldIsLowFiveBits : Obligations.ButtonFieldIsLowFiveBits := by
  have hfield : ∀ a : Sample, (Rec.btn (encRec a)).toNat = a.bs % 32 := fun a => by
    rw [Rec.btn_encRec, BitVec.toNat_ofNat]
  refine ⟨hfield, fun p a hlegal _ => ?_, fun _ _ h => encRec_congr rfl h rfl rfl⟩
  obtain ⟨-, hbs⟩ := Params.widths_of_legal hlegal
  have hsigned : ((Rec.btn (encRec a)).toNat : Int) = asSigned p.bsW a.bs % 32 := by
    rw [hfield, asSigned_emod_32 (by omega), Int.natCast_emod, Nat.cast_ofNat]
  exact ⟨hsigned, fun h => by omega, fun h => by omega⟩

/-! ### Word 0 (R58) -/

/-- Word 0 is the button field above the time-delta field. -/
theorem Rec.w0_eq_append (r : Rec) : Rec.w0 r = (Rec.btn r ++ Rec.td r : BitVec 16) := by
  rw [Rec.btn_eq, Rec.td_eq, BitVec.extractLsb'_append_extractLsb'_eq_extractLsb' (show 11 = 0 + 11 from rfl), Rec.w0]

theorem Rec.toNat_w0_eq_or (r : Rec) : (Rec.w0 r).toNat = (Rec.td r).toNat ||| ((Rec.btn r).toNat <<< 11) := by
  rw [Rec.w0_eq_append, BitVec.toNat_append, Nat.or_comm]

/-- The two fields have no bit in common, so their OR is their sum. -/
theorem Rec.toNat_w0_eq_add (r : Rec) : (Rec.w0 r).toNat = (Rec.td r).toNat + 2048 * (Rec.btn r).toNat := by
  rw [Rec.w0_eq_append, BitVec.toNat_append, Nat.shiftLeft_eq, Nat.mul_comm,
    ← Nat.two_pow_add_eq_or_of_lt (Rec.td r).isLt, Nat.add_comm]

/-- Settles O10: ENC drives the record of the sample on its ports, and word 0 is the OR and the sum of that record's fields. -/
theorem encDrivesPackedRecord : Obligations.EncDrivesPackedRecord := fun s => by
  have hor := Rec.toNat_w0_eq_or (encRec s.sampleIn)
  have hadd := Rec.toNat_w0_eq_add (encRec s.sampleIn)
  rw [Rec.td_encRec, Rec.btn_encRec, BitVec.toNat_ofNat, BitVec.toNat_ofNat] at hor hadd
  exact ⟨_, _, exec_enc s, rfl, hor, hadd, Rec.hx_encRec _, Rec.hy_encRec _⟩

/-! ### The buffer ENCS writes (R64, R65) -/

/-- Byte `k` of record `i` stands at offset `6*i + k` of the encoded stream. -/
theorem byte?_encodeStream {l : List Sample} {i k : Nat} (hi : i < l.length) (hk : k < 6) :
    (encodeStream l).2.byte? (6 * i + k) = some (Rec.byte (encRec l[i]) k) := by
  obtain ⟨-, hlen, -, hbyte⟩ := encodeStream_spec l
  rw [Buffer.byte?, if_pos (by omega), hbyte i k hi hk, Rec.byte_eq]

/-- Settles O18: ENCS is not refused, and drives the encoded stream of `sin`. -/
theorem encsWritesRecordsInOrder : Obligations.EncsWritesRecordsInOrder := fun s hdisjoint hcount => by
  obtain ⟨-, hlen, -, -⟩ := encodeStream_spec s.inp.sin
  refine ⟨_, _, exec_encs_of_ready hdisjoint hcount, rfl, hlen, fun hnil => ?_, fun i hi k hk => byte?_encodeStream hi hk⟩
  rw [hnil]
  rfl

end Sys2Proof.Machine

/-! PROOFS. The statements of family 41_decode: DEC's fields (R67, R68, R69), the samples DECS builds (R73, R74), and the two round
trips (R76, R77), the second over R91's law L1. -/

namespace Sys2Proof.Machine

/-! ### The decoded fields (R67, R68, R69, R71) -/

theorem Rec.toNat_td (r : Rec) : (Rec.td r).toNat = r.toNat % 2048 := by
  rw [Rec.td_eq, BitVec.extractLsb'_toNat, Nat.shiftRight_zero]

theorem Rec.toNat_btn (r : Rec) : (Rec.btn r).toNat = r.toNat / 2048 % 32 := by
  rw [Rec.btn_eq, BitVec.extractLsb'_toNat, Nat.shiftRight_eq_div_pow]

/-- The ports of a legal instance are wide enough for the fields to keep their numbers. -/
theorem decRec_td {p : Params} (hp : p.legal = true) (r : Rec) : (decRec p r).td = (Rec.td r).toNat :=
  zextNat_of_le (Params.widths_of_legal hp).1 _

theorem decRec_bs {p : Params} (hp : p.legal = true) (r : Rec) : (decRec p r).bs = (Rec.btn r).toNat :=
  zextNat_of_le (Nat.le_of_succ_le (Params.widths_of_legal hp).2) _

/-- Settles O14: DEC never refuses, and each port takes its field of the record. -/
theorem decDrivesUnpackedSample : Obligations.DecDrivesUnpackedSample := fun s hp => by
  refine ⟨_, exec_dec s, ?_, ?_, rfl, rfl⟩
  · rw [State.complete_out, OutPorts.ofSample_tdOut, decRec_td hp, Rec.toNat_td]
  · rw [State.complete_out, OutPorts.ofSample_bsOut, decRec_bs hp, Rec.toNat_btn]

/-- A number below half a port's range reads the same in two's complement. -/
theorem asSigned_of_two_mul_lt {w v : Nat} (h : 2 * v < 2 ^ w) : asSigned w v = v := by
  have hv : (BitVec.ofNat w v).toNat = v := by rw [BitVec.toNat_ofNat, Nat.mod_eq_of_lt (by omega)]
  rw [asSigned, BitVec.toInt_eq_toNat_of_lt (by rw [hv]; exact h), hv]

/-- Settles O15: the field is below 32, at most half the range of a port of at least 6 bits. -/
theorem decodedButtonsNeverNegative : Obligations.DecodedButtonsNeverNegative := fun p r hp => by
  obtain ⟨-, hbsW⟩ := Params.widths_of_legal hp
  have hlt : (Rec.btn r).toNat < 32 := (Rec.btn r).isLt
  have hrange : 2 ^ 6 ≤ 2 ^ p.bsW := Nat.pow_le_pow_right (by decide) hbsW
  rw [decRec_bs hp]
  exact ⟨rfl, hlt, asSigned_of_two_mul_lt (by omega)⟩

/-! ### The samples DECS builds (R73, R74) -/

theorem length_decodeStream (p : Params) (B : Buffer) : (decodeStream p B).2.length = B.len / 6 := by
  rw [decodeStream_spec, List.length_map, List.length_range, Buffer.recordCount]

/-- Sample `i` is the decoding of the record at index `i`. -/
theorem getElem?_decodeStream (p : Params) {B : Buffer} {i : Nat} (hi : i < B.recordCount) :
    (decodeStream p B).2[i]? = some (decRec p (B.recordAt i)) := by
  rw [decodeStream_spec, List.getElem?_map, List.getElem?_range hi, Option.map_some]

/-- Settles O20: DECS is not refused, and drives the decoded stream of `ibuf`. -/
theorem decsReadsWholeRecords : Obligations.DecsReadsWholeRecords := fun s hdisjoint hcount => by
  have hlength := length_decodeStream s.params s.inp.ibuf
  refine ⟨_, _, exec_decs_of_ready hdisjoint hcount, rfl, hlength, decodeStream_eq_nil, fun N k hk hlen => by omega,
    fun i hi => ?_⟩
  rw [getElem?_decodeStream s.params hi, Buffer.recordAt_eq (by omega)]

/-! ### Decoding after encoding (R76) -/

/-- Settles O40: `Sample.roundTrip` is the sample R76 names. -/
theorem decodeAfterEncodeOfSample : Obligations.DecodeAfterEncodeOfSample := fun _ s hp => decRec_encRec hp s

/-- Settles O42: the bytes ENCS left make its buffer again, and DECS of that buffer gives each sample's round trip. -/
theorem streamRoundTrip : Obligations.StreamRoundTrip := fun s hlegal hencs => by
  obtain ⟨-, -, hwf, -⟩ := encodeStream_spec s.inp.sin
  refine ⟨_, _, exec_of_opReady hencs, rfl, fun u hparams hibuf hdecs => ⟨_, exec_of_opReady hdecs, ?_⟩⟩
  rw [Buffer.ofBytes_bytes hwf] at hibuf
  rw [State.complete_out, resultPorts, OutPorts.ofSamples_sout, hparams, hibuf, decodeStream_encodeStream hlegal]
  rfl

/-! ### The magnitude of a widened pattern (R86) -/

/-- An exponent field `e` above a fraction that fits below it: their OR is their sum. -/
theorem shiftLeft_or_eq_add {n m : Nat} (e : Nat) (hm : m < 2 ^ n) : e <<< n ||| m = e * 2 ^ n + m := by
  rw [← Nat.shiftLeft_add_eq_or_of_lt hm, Nat.shiftLeft_eq]

theorem f32Magnitude_nan {t : Nat} (ht : t ≠ 0) (ht' : t < 2 ^ 10) :
    f32Magnitude 31 t = 255 * 2 ^ 23 + (512 ||| t) * 2 ^ 13 := by
  have hquiet : 512 ||| t < 2 ^ 10 := Nat.or_lt_two_pow (by decide) ht'
  have hmerge : 0x7FC00000 ||| t <<< 13 = 255 <<< 23 ||| (512 ||| t) <<< 13 := by
    rw [Nat.shiftLeft_or_distrib, ← Nat.or_assoc]
    rfl
  rw [f32Magnitude, if_pos rfl, if_neg ht, hmerge, shiftLeft_or_eq_add _ (by rw [Nat.shiftLeft_eq]; omega), Nat.shiftLeft_eq]

theorem f32Magnitude_normal {e t : Nat} (he : e ≠ 0) (he' : e ≠ 31) (ht : t < 2 ^ 10) :
    f32Magnitude e t = (e + 112) * 2 ^ 23 + t * 2 ^ 13 := by
  rw [f32Magnitude, if_neg he', if_neg he, shiftLeft_or_eq_add _ (by rw [Nat.shiftLeft_eq]; omega), Nat.shiftLeft_eq]

/-- Shifting a subnormal's leading bit up to bit 23 leaves the hidden bit above a whole fraction. -/
theorem mul_two_pow_sub_eq {p t : Nat} (hp : p ≤ 23) (hle : 2 ^ p ≤ t) (hlt : t < 2 ^ (p + 1)) :
    t * 2 ^ (23 - p) = 2 ^ 23 + (t - 2 ^ p) * 2 ^ (23 - p) ∧ (t - 2 ^ p) * 2 ^ (23 - p) < 2 ^ 23 := by
  have hpow : 2 ^ p * 2 ^ (23 - p) = 2 ^ 23 := pow_mul_pow_sub 2 hp
  constructor
  · rw [Nat.sub_mul, hpow, Nat.add_sub_cancel' (hpow ▸ Nat.mul_le_mul_right _ hle)]
  · rw [← hpow]
    exact Nat.mul_lt_mul_of_pos_right (by rw [Nat.pow_succ] at hlt; omega) (Nat.two_pow_pos _)

/-- The leading bit of a subnormal becomes the hidden bit, and the bits below it the top of the fraction. -/
theorem f32Magnitude_subnormal {t : Nat} (ht : t ≠ 0) (ht' : t < 2 ^ 10) :
    ∃ p m, p ≤ 9 ∧ m < 2 ^ 23 ∧ 2 ^ 23 + m = t * 2 ^ (23 - p) ∧ f32Magnitude 0 t = (p + 103) * 2 ^ 23 + m := by
  obtain ⟨hp, hle, hlt⟩ := highestBit_spec ht 9 ht'
  obtain ⟨hsig, hm⟩ := mul_two_pow_sub_eq (by omega) hle hlt
  refine ⟨highestBit t 9, _, hp, hm, hsig.symm, ?_⟩
  rw [f32Magnitude, if_neg (by decide), if_pos rfl, if_neg ht]
  dsimp only
  rw [Nat.one_shiftLeft, Nat.shiftLeft_eq _ (23 - _), shiftLeft_or_eq_add _ hm]

/-! ### Narrowing what was widened (R80) -/

theorem roundUp_zero {half : Nat} (h : half ≠ 0) (t : Nat) : roundUp 0 half t = 0 := if_neg (by omega)

theorem f16Magnitude_nan {t : Nat} (ht : t ≠ 0) : f16Magnitude 255 (t * 2 ^ 13) = 0x7E00 ||| t := by
  rw [f16Magnitude, if_pos rfl, if_neg (by omega), Nat.shiftRight_eq_div_pow, Nat.mul_div_cancel _ (by decide)]
  rfl

/-- A fraction with nothing to drop is narrowed exactly, in the range of the normal patterns. -/
theorem f16Magnitude_normal {e t : Nat} (he : e ≠ 0) (he' : e < 31) (ht : t < 2 ^ 10) :
    f16Magnitude (e + 112) (t * 2 ^ 13) = e * 2 ^ 10 + t := by
  have hexp : (((e + 112 : Nat) : Int) - 127 + 15).toNat = e := by omega
  rw [f16Magnitude, if_neg (by omega), if_neg (by omega)]
  dsimp only
  rw [if_neg (by omega), if_pos (by omega), hexp, Nat.shiftRight_eq_div_pow, Nat.mul_div_cancel _ (by decide),
    Nat.mul_mod_left, roundUp_zero (by decide), shiftLeft_or_eq_add _ ht, Nat.add_zero]

/-- The same below the normal range: the significand is a whole number of subnormal steps. -/
theorem f16Magnitude_subnormal {p m t : Nat} (hp : p ≤ 9) (hm : m < 2 ^ 23) (hsig : 2 ^ 23 + m = t * 2 ^ (23 - p)) :
    f16Magnitude (p + 103) m = t := by
  have hk : (-(((p + 103 : Nat) : Int) - 127) - 1).toNat = 23 - p := by omega
  have hhalf : 1 <<< (23 - p - 1) ≠ 0 := by rw [Nat.one_shiftLeft]; exact (Nat.two_pow_pos _).ne'
  rw [f16Magnitude, if_neg (by omega), if_neg (by omega)]
  dsimp only
  rw [if_neg (by omega), if_neg (by omega), if_neg (by omega), hk, shiftLeft_or_eq_add 1 hm, Nat.one_mul, hsig,
    Nat.shiftRight_eq_div_pow, Nat.mul_div_cancel _ (Nat.two_pow_pos _), Nat.mul_mod_left, roundUp_zero hhalf, Nat.add_zero]

/-- Narrowing a pattern given by its fields. -/
theorem f32ToF16_append (s : BitVec 1) {E m : Nat} (hE : E < 256) (hm : m < 2 ^ 23) :
    f32ToF16 (s ++ BitVec.ofNat 31 (E * 2 ^ 23 + m)) = s ++ BitVec.ofNat 15 (f16Magnitude E m) := by
  have hval : (BitVec.ofNat 31 (E * 2 ^ 23 + m)).toNat = E * 2 ^ 23 + m := by
    rw [BitVec.toNat_ofNat, Nat.mod_eq_of_lt (by omega)]
  rw [f32ToF16, f32Sign_append, f32Exp_append, f32Frac_append, hval, show (E * 2 ^ 23 + m) / 2 ^ 23 = E by omega,
    show (E * 2 ^ 23 + m) % 2 ^ 23 = m by omega]

/-- The exponent and fraction a pattern widens to, and what they narrow to again: a NaN with its quiet bit set, any other pattern
as it was. -/
theorem f16Magnitude_f32Magnitude {e t : Nat} (he : e < 32) (ht : t < 2 ^ 10) :
    ∃ E m, E < 256 ∧ m < 2 ^ 23 ∧ f32Magnitude e t = E * 2 ^ 23 + m ∧
      f16Magnitude E m = if e = 31 ∧ t ≠ 0 then 0x7E00 ||| t else e * 2 ^ 10 + t := by
  rcases eq_or_ne e 31 with rfl | he31
  · rcases eq_or_ne t 0 with rfl | ht0
    · exact ⟨255, 0, by decide, by decide, rfl, rfl⟩
    · have hquiet : 512 ||| t < 2 ^ 10 := Nat.or_lt_two_pow (by decide) ht
      refine ⟨255, (512 ||| t) * 2 ^ 13, by decide, by omega, f32Magnitude_nan ht0 ht, ?_⟩
      rw [if_pos ⟨rfl, ht0⟩, f16Magnitude_nan (Nat.or_eq_zero_iff.not.mpr fun h => ht0 h.2), ← Nat.or_assoc]
      rfl
  · rw [if_neg fun h => he31 h.1]
    rcases eq_or_ne e 0 with rfl | he0
    · rcases eq_or_ne t 0 with rfl | ht0
      · exact ⟨0, 0, by decide, by decide, rfl, rfl⟩
      · obtain ⟨p, m, hp, hm, hsig, hmag⟩ := f32Magnitude_subnormal ht0 ht
        refine ⟨p + 103, m, by omega, hm, hmag, ?_⟩
        rw [f16Magnitude_subnormal hp hm hsig, Nat.zero_mul, Nat.zero_add]
    · exact ⟨e + 112, t * 2 ^ 13, by omega, by omega, f32Magnitude_normal he0 he31 ht,
        f16Magnitude_normal he0 (by omega) ht⟩

theorem f16IsNaN_iff (h : F16) : f16IsNaN h = true ↔ f16Exp h = 31 ∧ f16Frac h ≠ 0 := by
  rw [f16IsNaN, Bool.and_eq_true, decide_eq_true_iff, decide_eq_true_iff]

theorem f16_eq_append (h : F16) : h = f16Sign h ++ BitVec.ofNat 15 (f16Exp h * 2 ^ 10 + f16Frac h) := by
  have hexp := f16Exp_lt h
  have hfrac := f16Frac_lt h
  apply BitVec.eq_of_toNat_eq
  rw [toNat_sign_append, BitVec.toNat_ofNat, Nat.mod_eq_of_lt (by omega), ← Nat.add_assoc, ← f16_toNat]

/-- The quiet bit lies in the magnitude. -/
theorem sign_append_or_quietBit (s : BitVec 1) (m : BitVec 15) : (s ++ m) ||| 0x0200#16 = s ++ (m ||| 0x0200#15) := by
  have hsplit : 0x0200#16 = 0#1 ++ 0x0200#15 := rfl
  rw [hsplit, BitVec.or_append, BitVec.or_zero]

/-- R91 L1: narrowing undoes widening, but for the quiet bit of a NaN. -/
theorem f32ToF16_f16ToF32 (h : F16) : f32ToF16 (f16ToF32 h) = quieten h := by
  obtain ⟨E, m, hE, hm, hwide, hnarrow⟩ := f16Magnitude_f32Magnitude (f16Exp_lt h) (f16Frac_lt h)
  rw [f16ToF32, hwide, f32ToF16_append _ hE hm, hnarrow, quieten]
  simp only [f16IsNaN_iff]
  split
  next hnan =>
    have hmag : 0x7E00 ||| f16Frac h = (f16Exp h * 2 ^ 10 + f16Frac h) ||| 0x0200 := by
      rw [← shiftLeft_or_eq_add _ (f16Frac_lt h), hnan.1, Nat.or_right_comm]
      rfl
    conv_rhs => rw [f16_eq_append h, sign_append_or_quietBit]
    rw [hmag, BitVec.ofNat_or]
  next => exact (f16_eq_append h).symm

/-- Setting the quiet bit where it is set already changes nothing. -/
theorem or_quietBit_of_getLsbD {h : F16} (hbit : h.getLsbD 9 = true) : h ||| 0x0200#16 = h := by
  have hmask : 0x0200#16 = BitVec.twoPow 16 9 := rfl
  ext i hi
  rw [hmask, BitVec.getElem_or, BitVec.getElem_twoPow]
  rcases eq_or_ne i 9 with rfl | hne
  · rw [← BitVec.getLsbD_eq_getElem, hbit, Bool.true_or]
  · rw [decide_eq_false hne, Bool.or_false]

/-- Only a signalling NaN is changed by making NaNs quiet. -/
theorem quieten_of_not_signalling {h : F16} (hs : f16IsSignalling h = false) : quieten h = h := by
  rw [quieten]
  split
  next hnan =>
    rw [f16IsSignalling, hnan, f16Frac, BitVec.testBit_toNat, BitVec.getLsbD_extractLsb'] at hs
    exact or_quietBit_of_getLsbD (by simpa using hs)
  next => rfl

/-! ### Encoding after decoding (R77) -/

theorem encRec_decRec {p : Params} (hp : p.legal = true) (r : Rec) :
    encRec (decRec p r) = Rec.pack (Rec.td r) (Rec.btn r) (quieten (Rec.hx r)) (quieten (Rec.hy r)) := by
  rw [encRec, decRec_td hp, decRec_bs hp, BitVec.ofNat_toNat, BitVec.ofNat_toNat, BitVec.setWidth_eq, BitVec.setWidth_eq,
    decRec, f32ToF16_f16ToF32, f32ToF16_f16ToF32]

/-- Settles O41: the four fields come back each by itself, and a record is its four fields. -/
theorem encodeAfterDecodeOfRecord : Obligations.EncodeAfterDecodeOfRecord := fun p r hp => by
  refine ⟨encRec_decRec hp r, fun hx hy => ?_⟩
  rw [encRec_decRec hp, quieten_of_not_signalling hx, quieten_of_not_signalling hy, Rec.pack_fields]

end Sys2Proof.Machine

/-! PROOFS. The statements of family 42_half_convert: the conversions against the values their patterns denote (R78 to R87), the
converters as operations (R89, R90) and the laws of R91. -/

namespace Sys2Proof.Machine

/-! ### The converters as operations (R89, R90) -/

/-- Settles O16: the two branches of the operation's meaning. -/
theorem cvtHSNarrowsOrIsAbsent : Obligations.CvtHSNarrowsOrIsAbsent := fun s => by
  rw [exec_cvtHS]
  refine ⟨fun h => ⟨_, if_pos h, ?_⟩, fun h => if_neg (Bool.eq_false_iff.mp h)⟩
  rw [State.complete_out, OutPorts.ofHalf_hOut]

/-- Settles O17: the two branches of the operation's meaning. -/
theorem cvtSHWidensOrIsAbsent : Obligations.CvtSHWidensOrIsAbsent := fun s => by
  rw [exec_cvtSH]
  refine ⟨fun h => ⟨_, if_pos h, ?_⟩, fun h => if_neg (Bool.eq_false_iff.mp h)⟩
  rw [State.complete_out, OutPorts.ofFull_fOut]

/-! ### Signs and laws on patterns (R84, R91) -/

/-- Settles O37: both conversions put the sign they read above the bits they compute. -/
theorem signsAreKept : Obligations.SignsAreKept := ⟨fun _ => f16Sign_append _ _, fun _ => f32Sign_append _ _⟩

/-- Settles O35: the two branches of `quieten`. -/
theorem wideningThenNarrowingIsIdentity : Obligations.WideningThenNarrowingIsIdentity := fun h => by
  rw [f32ToF16_f16ToF32, quieten]
  exact ⟨fun hn => if_neg (Bool.eq_false_iff.mp hn), fun hn => if_pos hn⟩

/-! ### The bits below the sign, as one number -/

/-- The exponent and the fraction of a binary16 pattern as one number; the larger it is, the larger is the magnitude. -/
def f16Below (h : F16) : Nat := f16Exp h * 2 ^ 10 + f16Frac h

/-- The same of a binary32 pattern. -/
def f32Below (a : F32) : Nat := f32Exp a * 2 ^ 23 + f32Frac a

theorem f16Exp_append_ofNat (s : BitVec 1) {n : Nat} (hn : n < 2 ^ 15) : f16Exp (s ++ BitVec.ofNat 15 n) = n / 1024 := by
  rw [f16Exp_append, BitVec.toNat_ofNat, Nat.mod_eq_of_lt hn]

theorem f16Frac_append_ofNat (s : BitVec 1) {n : Nat} (hn : n < 2 ^ 15) : f16Frac (s ++ BitVec.ofNat 15 n) = n % 1024 := by
  rw [f16Frac_append, BitVec.toNat_ofNat, Nat.mod_eq_of_lt hn]

theorem f32Exp_append_ofNat (s : BitVec 1) {n : Nat} (hn : n < 2 ^ 31) : f32Exp (s ++ BitVec.ofNat 31 n) = n / 2 ^ 23 := by
  rw [f32Exp_append, BitVec.toNat_ofNat, Nat.mod_eq_of_lt hn]

theorem f32Frac_append_ofNat (s : BitVec 1) {n : Nat} (hn : n < 2 ^ 31) : f32Frac (s ++ BitVec.ofNat 31 n) = n % 2 ^ 23 := by
  rw [f32Frac_append, BitVec.toNat_ofNat, Nat.mod_eq_of_lt hn]

theorem f16Below_append_ofNat (s : BitVec 1) {n : Nat} (hn : n < 2 ^ 15) : f16Below (s ++ BitVec.ofNat 15 n) = n := by
  rw [f16Below, f16Exp_append_ofNat s hn, f16Frac_append_ofNat s hn]
  omega

theorem f32Below_append_ofNat (s : BitVec 1) {n : Nat} (hn : n < 2 ^ 31) : f32Below (s ++ BitVec.ofNat 31 n) = n := by
  rw [f32Below, f32Exp_append_ofNat s hn, f32Frac_append_ofNat s hn, Nat.div_add_mod']

/-- A binary32 pattern is its sign and the bits below it. -/
theorem f32_eq_of_below {a b : F32} (hs : f32Sign a = f32Sign b) (hb : f32Below a = f32Below b) : a = b := by
  apply BitVec.eq_of_toNat_eq
  rw [f32_toNat, f32_toNat, hs, Nat.add_assoc, Nat.add_assoc]
  exact congrArg _ hb

/-! ### NaNs (R82, R87) -/

theorem f32IsNaN_iff (a : F32) : f32IsNaN a = true ↔ f32Exp a = 255 ∧ f32Frac a ≠ 0 := by
  rw [f32IsNaN, Bool.and_eq_true, decide_eq_true_iff, decide_eq_true_iff]

/-- The fields of a narrowed NaN. -/
theorem f32ToF16_nan {a : F32} (ha : f32IsNaN a = true) :
    f16Exp (f32ToF16 a) = 31 ∧ f16Frac (f32ToF16 a) = 0x200 ||| f32Frac a / 2 ^ 13 := by
  obtain ⟨hexp, hfrac⟩ := (f32IsNaN_iff a).mp ha
  have hlt := f32Frac_lt a
  have hquiet : 0x200 ||| f32Frac a / 2 ^ 13 < 2 ^ 10 := Nat.or_lt_two_pow (by decide) (by omega)
  have hmag : f16Magnitude 255 (f32Frac a) = 31 * 2 ^ 10 + (0x200 ||| f32Frac a / 2 ^ 13) := by
    rw [f16Magnitude, if_pos rfl, if_neg hfrac, Nat.or_assoc, Nat.shiftRight_eq_div_pow, ← shiftLeft_or_eq_add _ hquiet]
    rfl
  rw [f32ToF16, hexp, hmag, f16Exp_append_ofNat _ (by omega), f16Frac_append_ofNat _ (by omega)]
  omega

/-- The fields of a widened NaN. -/
theorem f16ToF32_nan {h : F16} (hh : f16IsNaN h = true) :
    f32Exp (f16ToF32 h) = 255 ∧ f32Frac (f16ToF32 h) = (0x200 ||| f16Frac h) * 2 ^ 13 := by
  obtain ⟨hexp, hfrac⟩ := (f16IsNaN_iff h).mp hh
  have hquiet : 0x200 ||| f16Frac h < 2 ^ 10 := Nat.or_lt_two_pow (by decide) (f16Frac_lt h)
  rw [f16ToF32, hexp, f32Magnitude_nan hfrac (f16Frac_lt h), f32Exp_append_ofNat _ (by omega),
    f32Frac_append_ofNat _ (by omega)]
  omega

/-- A fraction with its quiet bit set. -/
theorem testBit_quiet (t : Nat) : (0x200 ||| t).testBit 9 = true := by
  rw [Nat.testBit_or, show Nat.testBit 0x200 9 = true by decide, Bool.true_or]

theorem quiet_ne_zero (t : Nat) : 0x200 ||| t ≠ 0 := Nat.or_eq_zero_iff.not.mpr fun h => absurd h.1 (by decide)

/-- Settles O32: the fields of a narrowed NaN and of a widened one. -/
theorem naNsComeOutQuiet : Obligations.NaNsComeOutQuiet := by
  refine ⟨fun a ha => ?_, fun h hh => ?_⟩
  · obtain ⟨hexp, hfrac⟩ := f32ToF16_nan ha
    refine ⟨(f16IsNaN_iff _).mpr ⟨hexp, ?_⟩, ?_, signsAreKept.1 a, hfrac⟩
    · exact hfrac ▸ quiet_ne_zero _
    · rw [f16IsSignalling, hfrac, testBit_quiet, Bool.not_true, Bool.and_false]
  · obtain ⟨hexp, hfrac⟩ := f16ToF32_nan hh
    have hdistrib : (0x200 ||| f16Frac h) * 2 ^ 13 = 2 ^ 22 ||| f16Frac h * 2 ^ 13 := by
      rw [← Nat.shiftLeft_eq, Nat.shiftLeft_or_distrib, Nat.shiftLeft_eq (f16Frac h)]
      rfl
    refine ⟨(f32IsNaN_iff _).mpr ⟨hexp, ?_⟩, signsAreKept.2 h, hfrac.trans hdistrib⟩
    exact hfrac ▸ Nat.mul_ne_zero (quiet_ne_zero _) (by decide)

/-! ### The magnitude a pattern counts (R78)

Both formats read the bits below the sign alike: `floatUnits p n` is the magnitude of the pattern `n` of a format with `p` fraction
bits, in units of the format's smallest magnitude, the exponent's range taken as unbounded (R79). -/

/-- How far the significand of the pattern `n` is shifted up; the lowest two exponents, `0` and `1`, have the same step. -/
def floatShift (p n : Nat) : Nat := n / 2 ^ p - 1

/-- Taking the shift's binades off `n` leaves its significand, hidden bit included. -/
def floatUnits (p n : Nat) : Nat := (n - floatShift p n * 2 ^ p) * 2 ^ floatShift p n

theorem floatShift_fields {p t : Nat} (e : Nat) (ht : t < 2 ^ p) : floatShift p (e * 2 ^ p + t) = e - 1 := by
  rw [floatShift, Nat.add_comm, Nat.add_mul_div_right _ _ (Nat.two_pow_pos p), Nat.div_eq_of_lt ht, Nat.zero_add]

theorem floatUnits_subnormal {p t : Nat} (ht : t < 2 ^ p) : floatUnits p t = t := by
  have hshift : floatShift p t = 0 := by rw [floatShift, Nat.div_eq_of_lt ht]
  rw [floatUnits, hshift, Nat.zero_mul, Nat.sub_zero, Nat.pow_zero, Nat.mul_one]

theorem floatUnits_normal {p e t : Nat} (he : e ≠ 0) (ht : t < 2 ^ p) :
    floatUnits p (e * 2 ^ p + t) = (2 ^ p + t) * 2 ^ (e - 1) := by
  obtain ⟨e, rfl⟩ := Nat.exists_eq_succ_of_ne_zero he
  rw [floatUnits, floatShift_fields _ ht, Nat.succ_sub_one, Nat.succ_mul, Nat.add_assoc, Nat.add_sub_cancel_left]

/-- The magnitudes of two neighbours are one step of the lower one's exponent apart, at the end of a binade too. -/
theorem floatUnits_succ (p n : Nat) : floatUnits p (n + 1) = floatUnits p n + 2 ^ floatShift p n := by
  have hfields := Nat.div_add_mod' n (2 ^ p)
  have hlt := Nat.mod_lt n (Nat.two_pow_pos p)
  generalize n / 2 ^ p = e at hfields
  generalize n % 2 ^ p = t at hfields hlt
  subst hfields
  rw [floatShift_fields e hlt]
  rcases Nat.lt_or_ge (t + 1) (2 ^ p) with hin | hend
  · rcases eq_or_ne e 0 with rfl | he
    · rw [Nat.zero_mul, Nat.zero_add, floatUnits_subnormal hlt, floatUnits_subnormal hin, Nat.zero_sub, Nat.pow_zero]
    · rw [Nat.add_assoc, floatUnits_normal he hin, floatUnits_normal he hlt, ← Nat.add_assoc, Nat.succ_mul]
  · have hnext : e * 2 ^ p + t + 1 = (e + 1) * 2 ^ p + 0 := by rw [Nat.succ_mul]; omega
    rw [hnext, floatUnits_normal e.succ_ne_zero (Nat.two_pow_pos p), Nat.succ_sub_one]
    rcases e with - | e
    · rw [Nat.zero_mul, Nat.zero_add, floatUnits_subnormal hlt, Nat.pow_zero]
      omega
    · have hdouble : 2 ^ p * 2 = 2 ^ p + t + 1 := by omega
      rw [floatUnits_normal e.succ_ne_zero hlt, Nat.succ_sub_one, Nat.add_zero, Nat.pow_succ', ← Nat.mul_assoc, hdouble,
        Nat.succ_mul]

theorem floatUnits_strictMono (p : Nat) : StrictMono (floatUnits p) :=
  strictMono_nat_of_lt_succ fun n => by
    rw [floatUnits_succ]
    exact Nat.lt_add_of_pos_right (Nat.two_pow_pos _)

/-- The magnitude of a binary16 pattern in units of `2^-149`. -/
def halfUnits (n : Nat) : Nat := floatUnits 10 n * 2 ^ 125

theorem halfUnits_succ (n : Nat) : halfUnits (n + 1) = halfUnits n + 2 ^ (floatShift 10 n + 125) := by
  rw [halfUnits, halfUnits, floatUnits_succ, Nat.add_mul, ← Nat.pow_add]

theorem halfUnits_strictMono : StrictMono halfUnits :=
  (floatUnits_strictMono 10).mul_const (Nat.two_pow_pos 125)

theorem halfUnits_subnormal {t : Nat} (ht : t < 2 ^ 10) : halfUnits t = t * 2 ^ 125 := by
  rw [halfUnits, floatUnits_subnormal ht]

theorem halfUnits_zero : halfUnits 0 = 0 := (halfUnits_subnormal (Nat.two_pow_pos 10)).trans (Nat.zero_mul _)

theorem halfUnits_one : halfUnits 1 = 2 ^ 125 := (halfUnits_subnormal (by decide)).trans (Nat.one_mul _)

theorem halfUnits_normal {e t : Nat} (he : e ≠ 0) (ht : t < 2 ^ 10) :
    halfUnits (e * 2 ^ 10 + t) = (2 ^ 10 + t) * 2 ^ (e + 124) := by
  rw [halfUnits, floatUnits_normal he ht, Nat.mul_assoc, ← Nat.pow_add, show e - 1 + 125 = e + 124 by omega]

/-! ### What a pattern denotes (R78) -/

/-- A binary16 pattern is finite, an infinity or a NaN. -/
theorem f16Value_cases (h : F16) :
    (f16Exp h < 31 ∧ f16Value h = .finite (decide (f16Sign h = 1#1)) (halfUnits (f16Below h))) ∨
    (f16Exp h = 31 ∧ f16Frac h = 0 ∧ f16Value h = .inf (decide (f16Sign h = 1#1))) ∨
    (f16IsNaN h = true ∧ ∃ q, f16Value h = .nan q) := by
  have hexp := f16Exp_lt h
  have hfrac := f16Frac_lt h
  rw [f16IsNaN_iff, f16Below, f16Value]
  split
  next h31 =>
    split
    next h0 => exact .inr (.inl ⟨h31, h0, rfl⟩)
    next h0 => exact .inr (.inr ⟨⟨h31, h0⟩, _, rfl⟩)
  next h31 =>
    refine .inl ⟨by omega, ?_⟩
    split
    next h0 => rw [h0, Nat.zero_mul, Nat.zero_add, halfUnits_subnormal hfrac]
    next h0 => exact congrArg _ (halfUnits_normal h0 hfrac).symm

/-- A binary32 pattern is finite, an infinity or a NaN. -/
theorem f32Value_cases (a : F32) :
    (f32Exp a < 255 ∧ f32Value a = .finite (decide (f32Sign a = 1#1)) (floatUnits 23 (f32Below a))) ∨
    (f32Exp a = 255 ∧ f32Frac a = 0 ∧ f32Value a = .inf (decide (f32Sign a = 1#1))) ∨
    (f32IsNaN a = true ∧ ∃ q, f32Value a = .nan q) := by
  have hexp := f32Exp_lt a
  have hfrac := f32Frac_lt a
  rw [f32IsNaN_iff, f32Below, f32Value]
  split
  next h255 =>
    split
    next h0 => exact .inr (.inl ⟨h255, h0, rfl⟩)
    next h0 => exact .inr (.inr ⟨⟨h255, h0⟩, _, rfl⟩)
  next h255 =>
    refine .inl ⟨by omega, ?_⟩
    split
    next h0 => rw [h0, Nat.zero_mul, Nat.zero_add, floatUnits_subnormal hfrac]
    next h0 => rw [floatUnits_normal h0 hfrac]

/-- The NaNs lie above the infinities. -/
theorem f16_not_nan_of_below_le {h : F16} (hle : f16Below h ≤ 0x7C00) : f16IsNaN h = false := by
  rw [f16Below] at hle
  rw [Bool.eq_false_iff, ne_eq, f16IsNaN_iff]
  omega

/-- The pattern of a finite binary16 value. -/
theorem f16_of_finite {h : F16} {neg : Bool} {k : Nat} (hv : f16Value h = .finite neg k) :
    f16Below h < 0x7C00 ∧ neg = decide (f16Sign h = 1#1) ∧ k = halfUnits (f16Below h) := by
  obtain ⟨hexp, h'⟩ | ⟨-, -, h'⟩ | ⟨-, q, h'⟩ := f16Value_cases h <;> rw [h'] at hv <;> cases hv
  have hfrac := f16Frac_lt h
  exact ⟨by rw [f16Below]; omega, rfl, rfl⟩

/-- The pattern of a finite binary32 value. -/
theorem f32_of_finite {a : F32} {neg : Bool} {m : Nat} (hv : f32Value a = .finite neg m) :
    f32Exp a < 255 ∧ neg = decide (f32Sign a = 1#1) ∧ m = floatUnits 23 (f32Below a) := by
  obtain ⟨hlt, h'⟩ | ⟨-, -, h'⟩ | ⟨-, q, h'⟩ := f32Value_cases a <;> rw [h'] at hv <;> cases hv
  exact ⟨hlt, rfl, rfl⟩

/-- The pattern of a binary32 infinity. -/
theorem f32_of_inf {a : F32} {neg : Bool} (hv : f32Value a = .inf neg) :
    f32Exp a = 255 ∧ f32Frac a = 0 ∧ neg = decide (f32Sign a = 1#1) := by
  obtain ⟨-, h'⟩ | ⟨hexp, hfrac, h'⟩ | ⟨-, q, h'⟩ := f32Value_cases a <;> rw [h'] at hv <;> cases hv
  exact ⟨hexp, hfrac, rfl⟩

/-- A binary32 pattern that denotes a NaN is one. -/
theorem f32_of_nan {a : F32} {quiet : Bool} (hv : f32Value a = .nan quiet) : f32IsNaN a = true := by
  obtain ⟨-, h'⟩ | ⟨-, -, h'⟩ | ⟨hnan, -⟩ := f32Value_cases a
  · exact nomatch h'.symm.trans hv
  · exact nomatch h'.symm.trans hv
  · exact hnan

theorem f16Value_nan {h : F16} (hn : f16IsNaN h = true) : ∃ quiet, f16Value h = .nan quiet := by
  obtain ⟨hexp, hfrac⟩ := (f16IsNaN_iff h).mp hn
  exact ⟨_, by rw [f16Value, if_pos hexp, if_neg hfrac]⟩

/-- The magnitude and sign of a pattern put together from them. -/
theorem f16Value_append {n : Nat} (hn : n < 0x7C00) (s : BitVec 1) :
    f16Value (s ++ BitVec.ofNat 15 n) = .finite (decide (s = 1#1)) (halfUnits n) := by
  have hbelow := f16Below_append_ofNat s (show n < 2 ^ 15 by omega)
  have hexp := f16Exp_append_ofNat s (show n < 2 ^ 15 by omega)
  obtain ⟨-, h⟩ | ⟨hinf, -⟩ | ⟨hnan, -⟩ := f16Value_cases (s ++ BitVec.ofNat 15 n)
  · rw [h, hbelow, f16Sign_append]
  · omega
  · rw [f16IsNaN_iff] at hnan
    omega

theorem f32Value_append {n : Nat} (hn : n < 255 * 2 ^ 23) (s : BitVec 1) :
    f32Value (s ++ BitVec.ofNat 31 n) = .finite (decide (s = 1#1)) (floatUnits 23 n) := by
  have hexp := f32Exp_append_ofNat s (show n < 2 ^ 31 by omega)
  have hbelow := f32Below_append_ofNat s (show n < 2 ^ 31 by omega)
  obtain ⟨-, h⟩ | ⟨hinf, -⟩ | ⟨hnan, -⟩ := f32Value_cases (s ++ BitVec.ofNat 31 n)
  · rw [h, hbelow, f32Sign_append]
  · omega
  · rw [f32IsNaN_iff] at hnan
    omega

theorem f32Value_append_inf : ∀ s : BitVec 1, f32Value (s ++ 0x7F800000#31) = .inf (decide (s = 1#1)) := by decide

/-! ### Widening is exact (R86) -/

theorem f32Magnitude_zero : f32Magnitude 0 0 = 0 := rfl

/-- A finite pattern widens to a finite pattern of the same magnitude. -/
theorem floatUnits_f32Magnitude {e t : Nat} (he : e < 31) (ht : t < 2 ^ 10) :
    f32Magnitude e t < 255 * 2 ^ 23 ∧ floatUnits 23 (f32Magnitude e t) = halfUnits (e * 2 ^ 10 + t) := by
  rcases eq_or_ne e 0 with rfl | he0
  · rw [Nat.zero_mul, Nat.zero_add, halfUnits_subnormal ht]
    rcases eq_or_ne t 0 with rfl | ht0
    · rw [f32Magnitude_zero, floatUnits_subnormal (Nat.two_pow_pos 23), Nat.zero_mul]
      exact ⟨by decide, rfl⟩
    · obtain ⟨p, m, hp, hm, hsig, hmag⟩ := f32Magnitude_subnormal ht0 ht
      rw [hmag, floatUnits_normal (by omega) hm, hsig, Nat.mul_assoc, ← Nat.pow_add,
        show 23 - p + (p + 103 - 1) = 125 by omega]
      exact ⟨by omega, rfl⟩
  · have hsig : 2 ^ 23 + t * 2 ^ 13 = (2 ^ 10 + t) * 2 ^ 13 := by omega
    rw [f32Magnitude_normal he0 (by omega) ht, halfUnits_normal he0 ht]
    refine ⟨by omega, ?_⟩
    rw [floatUnits_normal (by omega) (by omega), hsig, Nat.mul_assoc, ← Nat.pow_add,
      show 13 + (e + 112 - 1) = e + 124 by omega]

/-- Settles O34: finite patterns by their magnitudes, and the two infinities. -/
theorem wideningKeepsTheValue : Obligations.WideningKeepsTheValue := fun h hn => by
  obtain ⟨hexp, hv⟩ | ⟨hexp, hfrac, hv⟩ | ⟨hnan, -⟩ := f16Value_cases h
  · obtain ⟨hlt, hunits⟩ := floatUnits_f32Magnitude hexp (f16Frac_lt h)
    rw [hv, f16ToF32, f32Value_append hlt, hunits, f16Below]
  · rw [hv, f16ToF32, hexp, hfrac]
    exact f32Value_append_inf _
  · exact absurd hnan (Bool.eq_false_iff.mp hn)

/-! ### Patterns of the same value -/

theorem eq_of_decide_eq_one : ∀ s t : BitVec 1, decide (s = 1#1) = decide (t = 1#1) → s = t := by decide

/-- Two binary32 patterns of the same value, not a NaN, are the same pattern. -/
theorem f32_eq_of_value {a b : F32} (ha : f32IsNaN a = false) (h : f32Value a = f32Value b) : a = b := by
  obtain ⟨-, hva⟩ | ⟨hea, hfa, hva⟩ | ⟨hnan, -⟩ := f32Value_cases a
  · obtain ⟨-, hs, hm⟩ := f32_of_finite (h.symm.trans hva)
    exact f32_eq_of_below (eq_of_decide_eq_one _ _ hs) ((floatUnits_strictMono 23).injective hm)
  · obtain ⟨heb, hfb, hs⟩ := f32_of_inf (h.symm.trans hva)
    exact f32_eq_of_below (eq_of_decide_eq_one _ _ hs) (by rw [f32Below, f32Below, hea, hfa, heb, hfb])
  · exact absurd hnan (Bool.eq_false_iff.mp ha)

/-- A widened pattern, no signalling NaN, narrows and widens back to itself. -/
theorem quantise_f16ToF32 {h : F16} (hs : f16IsSignalling h = false) : quantise (f16ToF32 h) = f16ToF32 h := by
  rw [quantise, f32ToF16_f16ToF32, quieten_of_not_signalling hs]

theorem f16IsSignalling_of_not_nan {h : F16} (hn : f16IsNaN h = false) : f16IsSignalling h = false := by
  rw [f16IsSignalling, hn, Bool.false_and]

/-- Settles O38: the pattern is the widening of the binary16 pattern of its value. -/
theorem representableValuesAreUnchanged : Obligations.RepresentableValuesAreUnchanged := fun x h hx hv => by
  have hnan : f16IsNaN h = false := by
    rw [Bool.eq_false_iff]
    intro hnan
    obtain ⟨q, hq⟩ := f16Value_nan hnan
    rw [f32_of_nan (hv.trans hq)] at hx
    cases hx
  obtain rfl := f32_eq_of_value hx (hv.trans (wideningKeepsTheValue h hnan).symm)
  exact quantise_f16ToF32 (f16IsSignalling_of_not_nan hnan)

/-! ### Nearest patterns (R79) -/

/-- `n` is the binary16 magnitude nearest to `v` units: no pattern below it and none above it is nearer, and it is even where one
is equally near. -/
structure NearestHalf (v n : Nat) : Prop where
  below : ∀ p < n, halfUnits p + halfUnits n ≤ 2 * v ∧ (halfUnits p + halfUnits n = 2 * v → n % 2 = 0)
  above : ∀ p > n, 2 * v ≤ halfUnits n + halfUnits p ∧ (2 * v = halfUnits n + halfUnits p → n % 2 = 0)

/-- Between two neighbours the lower one is nearest up to the middle. -/
theorem NearestHalf.lower {v n : Nat} (hle : halfUnits n ≤ v)
    (hmid : 2 * v < halfUnits n + halfUnits (n + 1) ∨ 2 * v = halfUnits n + halfUnits (n + 1) ∧ n % 2 = 0) :
    NearestHalf v n where
  below p hp := by
    have := halfUnits_strictMono hp
    omega
  above p hp := by
    have := halfUnits_strictMono.monotone (show n + 1 ≤ p from hp)
    omega

/-- Between two neighbours the upper one is nearest from the middle on. -/
theorem NearestHalf.upper {v n : Nat} (hle : v ≤ halfUnits (n + 1))
    (hmid : halfUnits n + halfUnits (n + 1) < 2 * v ∨ halfUnits n + halfUnits (n + 1) = 2 * v ∧ n % 2 = 1) :
    NearestHalf v (n + 1) where
  below p hp := by
    have := halfUnits_strictMono.monotone (Nat.le_of_lt_succ hp)
    omega
  above p hp := by
    have := halfUnits_strictMono hp
    omega

/-- R79's tie rule finds the nearest pattern, where `r` of the `2 * half` parts of the step above `n` were dropped. -/
theorem NearestHalf.add_roundUp {v n t r half c : Nat} (ht : t % 2 = n % 2) (hc : 0 < c) (hr : r < 2 * half)
    (hv : v = halfUnits n + r * c) (hstep : halfUnits (n + 1) = halfUnits n + 2 * half * c) :
    NearestHalf v (n + roundUp r half t) := by
  have hlast : r * c < 2 * half * c := Nat.mul_lt_mul_of_pos_right hr hc
  have htwice : 2 * half * c = 2 * (half * c) := Nat.mul_assoc _ _ _
  rw [roundUp]
  split
  next hup =>
    rcases hup with hgt | ⟨rfl, hodd⟩
    · have hgt' : half * c < r * c := Nat.mul_lt_mul_of_pos_right hgt hc
      exact .upper (by omega) (by omega)
    · exact .upper (by omega) (by omega)
  next hdown =>
    rw [Nat.add_zero]
    rcases Nat.lt_or_ge r half with hlt | hge
    · have hlt' : r * c < half * c := Nat.mul_lt_mul_of_pos_right hlt hc
      exact .lower (by omega) (by omega)
    · obtain rfl : r = half := by omega
      exact .lower (by omega) (by omega)

/-! ### Narrowing finds the nearest pattern (R80) -/

theorem f16Magnitude_tiny {e m : Nat} (he : e < 102) : f16Magnitude e m = 0 := by
  rw [f16Magnitude, if_neg (by omega)]
  dsimp only
  split
  next => rfl
  next => rw [if_neg (by omega), if_neg (by omega), if_pos (by omega)]

theorem f16Magnitude_huge {e m : Nat} (he : 142 < e) (he' : e ≠ 255) : f16Magnitude e m = 0x7C00 := by
  rw [f16Magnitude, if_neg he', if_neg (by omega)]
  exact if_pos (by omega)

theorem f16Magnitude_inNormalRange {e m : Nat} (he : e ≠ 0) (he' : e < 31) (hm : m < 2 ^ 23) :
    f16Magnitude (e + 112) m = e * 2 ^ 10 + m / 2 ^ 13 + roundUp (m % 2 ^ 13) 0x1000 (m / 2 ^ 13) := by
  have hexp : (((e + 112 : Nat) : Int) - 127 + 15).toNat = e := by omega
  rw [f16Magnitude, if_neg (by omega), if_neg (by omega)]
  dsimp only
  rw [if_neg (by omega), if_pos (by omega), hexp, Nat.shiftRight_eq_div_pow, shiftLeft_or_eq_add _ (by omega)]

theorem f16Magnitude_inSubnormalRange {k m : Nat} (hk : 14 ≤ k) (hk' : k ≤ 24) (hm : m < 2 ^ 23) :
    f16Magnitude (126 - k) m = (2 ^ 23 + m) / 2 ^ k + roundUp ((2 ^ 23 + m) % 2 ^ k) (2 ^ (k - 1)) ((2 ^ 23 + m) / 2 ^ k) := by
  have hshift : (-(((126 - k : Nat) : Int) - 127) - 1).toNat = k := by omega
  rw [f16Magnitude, if_neg (by omega), if_neg (by omega)]
  dsimp only
  rw [if_neg (by omega), if_neg (by omega), if_neg (by omega), hshift, shiftLeft_or_eq_add 1 hm, Nat.one_mul,
    Nat.shiftRight_eq_div_pow, Nat.one_shiftLeft]

/-- A magnitude of the exponents that narrow to a normal pattern before rounding: 13 bits are dropped. -/
theorem nearestHalf_inNormalRange {e m : Nat} (he : e ≠ 0) (he' : e < 31) (hm : m < 2 ^ 23) :
    NearestHalf (floatUnits 23 ((e + 112) * 2 ^ 23 + m)) (f16Magnitude (e + 112) m) := by
  have ht : m / 2 ^ 13 < 2 ^ 10 := by omega
  have hpow : 2 ^ (e + 124) = 2 * 0x1000 * 2 ^ (e + 111) := Nat.pow_add' 2 (e + 111) 13
  have hsig : 2 ^ 23 + m = (2 ^ 10 + m / 2 ^ 13) * (2 * 0x1000) + m % 2 ^ 13 := by omega
  rw [f16Magnitude_inNormalRange he he' hm]
  refine .add_roundUp (c := 2 ^ (e + 111)) (by omega) (Nat.two_pow_pos _) (Nat.mod_lt _ (by decide)) ?_ ?_
  · rw [floatUnits_normal (Nat.succ_ne_zero _) hm, halfUnits_normal he ht, hpow, hsig, Nat.add_mul _ (m % _), Nat.mul_assoc]
    rfl
  · rw [halfUnits_succ, floatShift_fields e ht, show e - 1 + 125 = e + 124 by omega, hpow]

/-- A magnitude of the exponents below, which narrow to a subnormal pattern before rounding: `k` bits are dropped. -/
theorem nearestHalf_inSubnormalRange {k m : Nat} (hk : 14 ≤ k) (hk' : k ≤ 24) (hm : m < 2 ^ 23) :
    NearestHalf (floatUnits 23 ((126 - k) * 2 ^ 23 + m)) (f16Magnitude (126 - k) m) := by
  have hpow : 2 ^ 125 = 2 ^ k * 2 ^ (125 - k) := (pow_mul_pow_sub 2 (by omega)).symm
  have hhalf : 2 * 2 ^ (k - 1) = 2 ^ k := by rw [← Nat.pow_succ', Nat.succ_eq_add_one, Nat.sub_add_cancel (by omega)]
  have ht : (2 ^ 23 + m) / 2 ^ k < 2 ^ 10 := by
    have hle : 2 ^ 14 ≤ 2 ^ k := Nat.pow_le_pow_right (by decide) hk
    exact Nat.div_lt_of_lt_mul (by omega)
  rw [f16Magnitude_inSubnormalRange hk hk' hm]
  refine .add_roundUp (c := 2 ^ (125 - k)) rfl (Nat.two_pow_pos _) (hhalf.symm ▸ Nat.mod_lt _ (Nat.two_pow_pos k)) ?_ ?_
  · rw [floatUnits_normal (by omega) hm, halfUnits_subnormal ht, hpow, ← Nat.mul_assoc, ← Nat.add_mul, Nat.div_add_mod',
      show 126 - k - 1 = 125 - k by omega]
  · rw [halfUnits_succ, floatShift, Nat.div_eq_of_lt ht, hhalf, ← hpow]

/-- A magnitude of fewer than half of the smallest subnormal's units narrows to zero. -/
theorem nearestHalf_tiny {e m : Nat} (he : e < 102) (hm : m < 2 ^ 23) :
    NearestHalf (floatUnits 23 (e * 2 ^ 23 + m)) (f16Magnitude e m) := by
  have hmid : floatUnits 23 (102 * 2 ^ 23 + 0) = 2 ^ 124 := floatUnits_normal (by decide) (by decide)
  have hlt := floatUnits_strictMono 23 (show e * 2 ^ 23 + m < 102 * 2 ^ 23 + 0 by omega)
  rw [f16Magnitude_tiny he]
  refine .lower (halfUnits_zero.trans_le (Nat.zero_le _)) (.inl ?_)
  rw [Nat.zero_add, halfUnits_zero, halfUnits_one]
  omega

/-- Up to the largest exponent that does not overflow, the nearest pattern with the exponent range taken as unbounded. -/
theorem nearestHalf_f16Magnitude {e m : Nat} (he : e < 143) (hm : m < 2 ^ 23) :
    NearestHalf (floatUnits 23 (e * 2 ^ 23 + m)) (f16Magnitude e m) := by
  rcases Nat.lt_or_ge e 102 with htiny | hge
  · exact nearestHalf_tiny htiny hm
  · rcases Nat.lt_or_ge e 113 with hsub | hnorm
    · have hk : 126 - (126 - e) = e := by omega
      exact hk ▸ nearestHalf_inSubnormalRange (k := 126 - e) (by omega) (by omega) hm
    · obtain ⟨e, rfl⟩ := Nat.exists_eq_add_of_le' hnorm
      exact nearestHalf_inNormalRange (e := e + 1) (by omega) (by omega) hm

/-- The magnitudes of `2^16` and more are those from its exponent on. -/
theorem le_floatUnits_iff {e m : Nat} (hm : m < 2 ^ 23) : 2 ^ 165 ≤ floatUnits 23 (e * 2 ^ 23 + m) ↔ 142 < e := by
  have hmin : floatUnits 23 (143 * 2 ^ 23 + 0) = 2 ^ 165 := floatUnits_normal (by decide) (by decide)
  rw [← hmin, (floatUnits_strictMono 23).le_iff_le]
  omega

theorem halfUnits_inf : halfUnits 0x7C00 = 2 ^ 165 := halfUnits_normal (e := 31) (t := 0) (by decide) (by decide)

theorem halfUnits_max : halfUnits 0x7BFF = 65504 * 2 ^ 149 :=
  halfUnits_normal (e := 30) (t := 1023) (by decide) (by decide)

/-- The middle between the largest finite pattern and the next, 65520, is where overflow begins (R81). -/
theorem NearestHalf.lt_inf_iff {v n : Nat} (h : NearestHalf v n) : n < 0x7C00 ↔ v < 65520 * 2 ^ 149 := by
  have hmax := halfUnits_max
  have hinf := halfUnits_inf
  constructor
  · intro hn
    obtain ⟨hle, htie⟩ := h.above 0x7C00 hn
    have hle' := halfUnits_strictMono.monotone (show n ≤ 0x7BFF by omega)
    have hodd : 2 * v = halfUnits n + halfUnits 0x7C00 → halfUnits n ≠ halfUnits 0x7BFF := fun heq heq' => by
      have heven := htie heq
      rw [halfUnits_strictMono.injective heq'] at heven
      cases heven
    omega
  · intro hv
    by_contra hn
    have hle := (h.below 0x7BFF (by omega)).1
    have hle' := halfUnits_strictMono.monotone (show 0x7C00 ≤ n by omega)
    omega

/-- A magnitude below `2^16` is not rounded above it. -/
theorem NearestHalf.le_inf {v n : Nat} (h : NearestHalf v n) (hv : v < 2 ^ 165) : n ≤ 0x7C00 := by
  by_contra hn
  have hle := (h.below 0x7C00 (by omega)).1
  have hlt := halfUnits_strictMono (show 0x7C00 < n by omega)
  have hinf := halfUnits_inf
  omega

/-- Half of the smallest subnormal is the tie between it and zero, which is even (R83). -/
theorem NearestHalf.eq_zero_iff {v n : Nat} (h : NearestHalf v n) : n = 0 ↔ v ≤ 2 ^ 124 := by
  have hzero := halfUnits_zero
  have hone := halfUnits_one
  constructor
  · rintro rfl
    have hle := (h.above 1 Nat.one_pos).1
    omega
  · intro hv
    by_contra hn
    obtain ⟨hle, htie⟩ := h.below 0 (Nat.pos_of_ne_zero hn)
    have hle' : halfUnits 1 ≤ halfUnits n := halfUnits_strictMono.monotone (Nat.pos_of_ne_zero hn)
    obtain rfl : n = 1 := halfUnits_strictMono.injective (by omega)
    exact absurd (htie (by omega)) (by decide)

/-- R80 against R79: below `2^16` a finite pattern of `m` units narrows to the nearest bits, from there on to an infinity's. -/
theorem f16Magnitude_of_finite {a : F32} {neg : Bool} {m : Nat} (hv : f32Value a = .finite neg m) :
    m < 2 ^ 165 ∧ NearestHalf m (f16Magnitude (f32Exp a) (f32Frac a)) ∨
    2 ^ 165 ≤ m ∧ f16Magnitude (f32Exp a) (f32Frac a) = 0x7C00 := by
  obtain ⟨hexp, -, rfl⟩ := f32_of_finite hv
  have hiff := le_floatUnits_iff (e := f32Exp a) (f32Frac_lt a)
  rcases Nat.lt_or_ge 142 (f32Exp a) with hge | hlt
  · exact .inr ⟨hiff.mpr hge, f16Magnitude_huge hge (by omega)⟩
  · exact .inl ⟨Nat.lt_of_not_le (hiff.not.mpr (by omega)), nearestHalf_f16Magnitude (by omega) (f32Frac_lt a)⟩

theorem f16Magnitude_lt_inf_iff {a : F32} {neg : Bool} {m : Nat} (hv : f32Value a = .finite neg m) :
    f16Magnitude (f32Exp a) (f32Frac a) < 0x7C00 ↔ m < 65520 * 2 ^ 149 := by
  obtain ⟨-, hnear⟩ | ⟨hm, hn⟩ := f16Magnitude_of_finite hv
  · exact hnear.lt_inf_iff
  · omega

theorem f16Magnitude_le_inf {a : F32} {neg : Bool} {m : Nat} (hv : f32Value a = .finite neg m) :
    f16Magnitude (f32Exp a) (f32Frac a) ≤ 0x7C00 := by
  obtain ⟨hm, hnear⟩ | ⟨-, hn⟩ := f16Magnitude_of_finite hv
  · exact hnear.le_inf hm
  · exact hn.le

theorem f16Magnitude_eq_zero_iff {a : F32} {neg : Bool} {m : Nat} (hv : f32Value a = .finite neg m) :
    f16Magnitude (f32Exp a) (f32Frac a) = 0 ↔ m ≤ 2 ^ 124 := by
  obtain ⟨-, hnear⟩ | ⟨hm, hn⟩ := f16Magnitude_of_finite hv
  · exact hnear.eq_zero_iff
  · omega

theorem f16Below_f32ToF16 {a : F32} {neg : Bool} {m : Nat} (hv : f32Value a = .finite neg m) :
    f16Below (f32ToF16 a) = f16Magnitude (f32Exp a) (f32Frac a) :=
  f16Below_append_ofNat _ (Nat.lt_of_le_of_lt (f16Magnitude_le_inf hv) (by decide))

/-- Below the overflow threshold the result is finite, and its magnitude is the nearest (R79, R81). -/
theorem f32ToF16_of_lt {a : F32} {neg : Bool} {m : Nat} (hv : f32Value a = .finite neg m) (hm : m < 65520 * 2 ^ 149) :
    ∃ n < 0x7C00, NearestHalf m n ∧ f16Below (f32ToF16 a) = n ∧ f16Value (f32ToF16 a) = .finite neg (halfUnits n) := by
  have hn := (f16Magnitude_lt_inf_iff hv).mpr hm
  obtain ⟨-, hnear⟩ | ⟨hge, -⟩ := f16Magnitude_of_finite hv
  · have hbelow := f16Below_f32ToF16 hv
    obtain ⟨-, rfl, -⟩ := f32_of_finite hv
    exact ⟨_, hn, hnear, hbelow, f16Value_append hn _⟩
  · omega

theorem sign_append_inf : ∀ s : BitVec 1, s ++ 0x7C00#15 = if decide (s = 1#1) then 0xFC00#16 else 0x7C00#16 := by decide

/-- An infinity keeps its sign and stays one. -/
theorem f32ToF16_of_inf {a : F32} {neg : Bool} (hv : f32Value a = .inf neg) :
    f32ToF16 a = if neg then 0xFC00#16 else 0x7C00#16 := by
  obtain ⟨hexp, hfrac, rfl⟩ := f32_of_inf hv
  rw [f32ToF16, hexp, hfrac]
  exact sign_append_inf _

theorem sign_append_zero : ∀ s : BitVec 1, s ++ 0x0000#15 = if decide (s = 1#1) then 0x8000#16 else 0x0000#16 := by decide

/-- Settles O31: the threshold is where the nearest pattern with the exponent range unbounded leaves the finite ones. -/
theorem narrowingOverflowsToInfinity : Obligations.NarrowingOverflowsToInfinity := by
  refine ⟨fun a neg m hv hm => ?_, fun a neg m hv hm => ?_, fun a neg hv => f32ToF16_of_inf hv⟩
  · have hn : f16Magnitude (f32Exp a) (f32Frac a) = 0x7C00 :=
      (f16Magnitude_le_inf hv).antisymm (Nat.le_of_not_lt ((f16Magnitude_lt_inf_iff hv).not.mpr (by omega)))
    obtain ⟨-, rfl, -⟩ := f32_of_finite hv
    rw [f32ToF16, hn]
    exact sign_append_inf _
  · obtain ⟨n, hn, -, -, hvalue⟩ := f32ToF16_of_lt hv hm
    exact ⟨_, hvalue, halfUnits_max ▸ halfUnits_strictMono.monotone (show n ≤ 0x7BFF by omega)⟩

/-- Settles O33: zero is the nearest pattern up to half of the smallest subnormal and nowhere above. -/
theorem subnormalResultsAreNotFlushed : Obligations.SubnormalResultsAreNotFlushed := fun a neg m hv => by
  have hzero := f16Magnitude_eq_zero_iff hv
  constructor
  · intro hm
    obtain ⟨-, rfl, -⟩ := f32_of_finite hv
    rw [f32ToF16, hzero.mpr hm]
    exact sign_append_zero _
  · intro hm
    have hn := hzero.not.mpr (by omega)
    rw [← f16Below_f32ToF16 hv] at hn ⊢
    exact ⟨hn, fun h => hn (congrArg f16Below h), fun h => hn (congrArg f16Below h)⟩

/-! ### Nearness as a distance, signs included (R79) -/

/-- Any other magnitude is at least as far off, and as far off only if the nearest is even. -/
theorem NearestHalf.abs_sub_le {v n p : Nat} (h : NearestHalf v n) (hp : p ≠ n) :
    |(halfUnits n : Int) - v| ≤ |(halfUnits p : Int) - v| ∧
    (|(halfUnits n : Int) - v| = |(halfUnits p : Int) - v| → n % 2 = 0) := by
  rcases Nat.lt_or_gt_of_ne hp with hlt | hgt
  · obtain ⟨hle, htie⟩ := h.below p hlt
    have hmono := halfUnits_strictMono hlt
    have habs : |(halfUnits p : Int) - v| = v - halfUnits p := by rw [abs_sub_comm, abs_of_nonneg (by omega)]
    obtain ⟨habs', -⟩ | ⟨habs', -⟩ := abs_cases ((halfUnits n : Int) - v) <;> omega
  · obtain ⟨hle, htie⟩ := h.above p hgt
    have hmono := halfUnits_strictMono hgt
    have habs : |(halfUnits p : Int) - v| = halfUnits p - v := abs_of_nonneg (by omega)
    obtain ⟨habs', -⟩ | ⟨habs', -⟩ := abs_cases ((halfUnits n : Int) - v) <;> omega

/-- Two values of one sign are as far apart as their magnitudes. -/
theorem abs_signedUnits_sub_self (neg : Bool) (k m : Nat) :
    |signedUnits neg k - signedUnits neg m| = |(k : Int) - m| := by
  cases neg
  · rfl
  · rw [signedUnits, signedUnits, if_pos rfl, if_pos rfl, neg_sub_neg, abs_sub_comm]

/-- Two values of opposite signs are apart by the sum of their magnitudes. -/
theorem abs_signedUnits_sub_of_ne {gneg neg : Bool} (h : gneg ≠ neg) (k m : Nat) :
    |signedUnits gneg k - signedUnits neg m| = (k : Int) + m := by
  cases neg
  · obtain rfl := Bool.eq_true_of_not_eq_false h
    rw [signedUnits, signedUnits, if_pos rfl, if_neg Bool.false_ne_true, ← neg_add', abs_neg]
    exact abs_of_nonneg (by omega)
  · obtain rfl := Bool.eq_false_of_not_eq_true h
    rw [signedUnits, signedUnits, if_pos rfl, if_neg Bool.false_ne_true, sub_neg_eq_add]
    exact abs_of_nonneg (by omega)

/-- The nearest pattern with its sign, against a pattern of either sign: one of the other sign is no nearer than zero. -/
theorem NearestHalf.abs_signedUnits_sub_le {v n : Nat} (h : NearestHalf v n) (neg gneg : Bool) (p : Nat) :
    |signedUnits neg (halfUnits n) - signedUnits neg v| ≤ |signedUnits gneg (halfUnits p) - signedUnits neg v| ∧
    (|signedUnits neg (halfUnits n) - signedUnits neg v| = |signedUnits gneg (halfUnits p) - signedUnits neg v| →
      signedUnits gneg (halfUnits p) ≠ signedUnits neg (halfUnits n) → n % 2 = 0) := by
  rw [abs_signedUnits_sub_self]
  rcases eq_or_ne gneg neg with rfl | hneg
  · rw [abs_signedUnits_sub_self]
    rcases eq_or_ne p n with rfl | hp
    · exact ⟨le_rfl, fun _ hne => absurd rfl hne⟩
    · exact ⟨(h.abs_sub_le hp).1, fun heq _ => (h.abs_sub_le hp).2 heq⟩
  · rw [abs_signedUnits_sub_of_ne hneg]
    have habs : |(halfUnits 0 : Int) - v| = v := by rw [halfUnits_zero, abs_sub_comm, Nat.cast_zero, sub_zero, Nat.abs_cast]
    rcases eq_or_ne n 0 with rfl | hn
    · exact ⟨by omega, fun _ _ => rfl⟩
    · obtain ⟨hle, htie⟩ := h.abs_sub_le hn.symm
      exact ⟨by omega, fun heq _ => htie (by omega)⟩

/-- Settles O30: the result's magnitude is the nearest, and its last fraction bit is the magnitude's last bit. -/
theorem narrowingIsNearestTiesToEven : Obligations.NarrowingIsNearestTiesToEven := fun a neg m hv hm => by
  obtain ⟨n, -, hnear, hbelow, hvalue⟩ := f32ToF16_of_lt hv hm
  refine ⟨_, hvalue, fun g gneg k hg => ?_⟩
  obtain ⟨-, -, rfl⟩ := f16_of_finite hg
  obtain ⟨hle, htie⟩ := hnear.abs_signedUnits_sub_le neg gneg (f16Below g)
  refine ⟨hle, fun heq hne => ?_⟩
  have heven := htie heq hne
  rw [f16Below] at hbelow
  omega

/-! ### Quantisation (R91) -/

/-- Above the subnormals a step is at most `2^-10` of the magnitude it starts from. -/
theorem halfUnits_succ_le {n : Nat} (hn : 2 ^ 10 ≤ n) : 2 ^ 10 * halfUnits (n + 1) ≤ (2 ^ 10 + 1) * halfUnits n := by
  obtain ⟨e, t, he, ht, rfl⟩ : ∃ e t, e ≠ 0 ∧ t < 2 ^ 10 ∧ n = e * 2 ^ 10 + t :=
    ⟨n / 2 ^ 10, n % 2 ^ 10, by omega, by omega, by omega⟩
  have hle : 2 ^ 10 * 2 ^ (e + 124) ≤ (2 ^ 10 + t) * 2 ^ (e + 124) := Nat.mul_le_mul_right _ (by omega)
  rw [halfUnits_succ, floatShift_fields e ht, halfUnits_normal he ht, show e - 1 + 125 = e + 124 by omega]
  omega

/-- In the normal range the nearest pattern is off by at most half a step. -/
theorem NearestHalf.relative_error_le {v n : Nat} (h : NearestHalf v n) (hv : 2 ^ 135 ≤ v) :
    2 ^ 11 * |(halfUnits n : Int) - v| ≤ v := by
  have hmin : halfUnits (2 ^ 10) = 2 ^ 135 := halfUnits_normal (e := 1) (t := 0) (by decide) (by decide)
  have hn : 2 ^ 10 ≤ n := by
    by_contra hlt
    have hle := (h.above (2 ^ 10) (by omega)).1
    have hmono := halfUnits_strictMono (show n < 2 ^ 10 by omega)
    omega
  rcases Nat.lt_or_ge v (halfUnits n) with hgt | hle
  · have hne : n ≠ 2 ^ 10 := by
      rintro rfl
      omega
    obtain ⟨p, rfl⟩ : ∃ p, n = p + 1 := ⟨n - 1, by omega⟩
    have hprev := (h.below p p.lt_succ_self).1
    have hstep := halfUnits_succ_le (show 2 ^ 10 ≤ p by omega)
    rw [abs_of_nonneg (by omega)]
    omega
  · have hnext := (h.above (n + 1) n.lt_succ_self).1
    have hstep := halfUnits_succ_le hn
    rw [abs_sub_comm, abs_of_nonneg (by omega)]
    omega

/-- Settles O39: widening is exact, so the error is that of the nearest binary16 pattern. -/
theorem relativeErrorIsAtMostTwoToMinusEleven : Obligations.RelativeErrorIsAtMostTwoToMinusEleven :=
  fun x neg m hv hmin hm => by
    obtain ⟨n, hn, hnear, hbelow, hvalue⟩ := f32ToF16_of_lt hv hm
    have hnan := f16_not_nan_of_below_le (hbelow.trans_le hn.le)
    exact ⟨_, (wideningKeepsTheValue _ hnan).trans hvalue, hnear.relative_error_le hmin⟩

/-- Narrowing never leaves a signalling NaN: only a NaN narrows to a NaN, and it is made quiet. -/
theorem f16IsSignalling_f32ToF16 (a : F32) : f16IsSignalling (f32ToF16 a) = false := by
  obtain ⟨-, hv⟩ | ⟨-, -, hv⟩ | ⟨hnan, -⟩ := f32Value_cases a
  · exact f16IsSignalling_of_not_nan (f16_not_nan_of_below_le ((f16Below_f32ToF16 hv).trans_le (f16Magnitude_le_inf hv)))
  · rw [f32ToF16_of_inf hv]
    split <;> rfl
  · exact (naNsComeOutQuiet.1 a hnan).2.1

/-- Settles O36: what narrowing leaves comes back from widening as it was. -/
theorem quantisationIsIdempotent : Obligations.QuantisationIsIdempotent := fun x =>
  quantise_f16ToF32 (f16IsSignalling_f32ToF16 x)

end Sys2Proof.Machine

/-! PROOFS. The statements of family 60_exceptions: which refusal a step gives and when it completes (R96, R97, R98, R99, R111, R112),
and the steps several instances take together (R105). -/

namespace Sys2Proof.Machine

/-! ### The state the duties are judged at (R36, R111)

`dutiesKept` starts the host's events from the state before the operation, `hostTurn` from the state the operation leaves. The two
differ in an input the operation does not read, and that input's size in memory is the same in both. -/

/-- Two states on which the duties around operation `i` are judged alike: they agree in the parameters, the placement and the inputs
`i` reads, and in how much memory the other inputs take. -/
structure State.SameDuties (i : Instr) (s t : State) : Prop where
  params : t.params = s.params
  place : t.place = s.place
  inp : t.inp = { s.inp with sin := t.inp.sin, ibuf := t.inp.ibuf }
  sinLength : t.inp.sin.length = s.inp.sin.length
  ibufLen : t.inp.ibuf.len = s.inp.ibuf.len
  sin_of_read : opReads i .sin = true → t.inp.sin = s.inp.sin
  ibuf_of_read : opReads i .ibuf = true → t.inp.ibuf = s.inp.ibuf

theorem State.drive_eq_self_iff (s : State) (d : Drive) :
    s.drive d = s ↔ d.onPorts s.params s.inp = s.inp ∧ d.onPlace s.place = s.place := by
  constructor
  · intro h
    exact ⟨congrArg State.inp h, congrArg State.place h⟩
  · rintro ⟨hports, hplace⟩
    rw [State.drive, hports, hplace]
    rfl

/-- Whether a drive changes the input ports does not depend on the inputs it does not drive. -/
theorem Drive.onPorts_eq_self_congr {p : Params} {f : InPorts} {S : List Sample} {B : Buffer} {d : Drive}
    (hsin : d.port = .sin → S = f.sin) (hibuf : d.port = .ibuf → B = f.ibuf) :
    d.onPorts p { f with sin := S, ibuf := B } = { f with sin := S, ibuf := B } ↔ d.onPorts p f = f := by
  obtain ⟨_, _, _, _, _, _, _, _, _, _⟩ := f
  cases d with
  | sin v => simp [Drive.onPorts, hsin rfl]
  | ibuf v => simp [Drive.onPorts, hibuf rfl]
  | _ => simp [Drive.onPorts]

/-- An operation's results reach no input it reads. -/
theorem sameDuties_of_exec {i : Instr} {s t : State} (h : exec i s = .next t) : State.SameDuties i s t := by
  obtain ⟨hsinLen, hibufLen⟩ := resultStore_lengths s i
  rw [exec_next h]
  refine ⟨by simp, by simp, by simpa using resultStore_inp s i, by simpa using hsinLen, by simpa using hibufLen,
    fun hread => ?_, fun hread => ?_⟩
  · by_contra hne
    obtain ⟨rfl, -⟩ := resultStore_sin_ne hne
    cases hread
  · by_contra hne
    obtain ⟨rfl, -⟩ := resultStore_ibuf_ne hne
    cases hread

namespace State.SameDuties

variable {i : Instr} {s t : State}

theorem withHost (h : State.SameDuties i s t) (hs : List Turn) : State.SameDuties i (s.withHost hs) (t.withHost hs) :=
  ⟨h.params, h.place, h.inp, h.sinLength, h.ibufLen, h.sin_of_read, h.ibuf_of_read⟩

/-- A drive gives both states the same value. -/
theorem drive (h : State.SameDuties i s t) (d : Drive) : State.SameDuties i (s.drive d) (t.drive d) := by
  obtain ⟨hparams, hplace, hinp, hsinLen, hibufLen, hsin, hibuf⟩ := h
  constructor
  case params => exact hparams
  case place => rw [State.drive_place, State.drive_place, hplace]
  all_goals rw [State.drive_inp, State.drive_inp, hparams]
  case inp => rw [hinp]; cases d <;> rfl
  case sinLength =>
    cases d with
    | sin v => rfl
    | _ => exact hsinLen
  case ibufLen =>
    cases d with
    | ibuf v => rfl
    | _ => exact hibufLen
  case sin_of_read =>
    cases d with
    | sin v => exact fun _ => rfl
    | _ => exact hsin
  case ibuf_of_read =>
    cases d with
    | ibuf v => exact fun _ => rfl
    | _ => exact hibuf

theorem after_event (h : State.SameDuties i s t) (e : HostEvent) :
    State.SameDuties i (eventEffect s e) (eventEffect t e) := by
  cases e with
  | drive d => exact h.drive d
  | _ => exact h

theorem opMemory_eq (h : State.SameDuties i s t) : opMemory i t = opMemory i s := by
  cases i <;> simp only [opMemory, State.obufRegion, State.ibufRegion, h.place, h.sinLength, h.ibufLen]

theorem event_memory_eq (h : State.SameDuties i s t) (e : HostEvent) : e.memory t = e.memory s := by
  cases e with
  | drive d => cases d <;> simp only [HostEvent.memory, Drive.memory, State.ibufRegion, h.place, h.ibufLen]
  | readOutput p => cases p <;> simp only [HostEvent.memory, OutPort.memory, State.obufRegion, h.place, h.sinLength]
  | _ => rfl

/-- A drive of an input the operation reads changes both states or neither. -/
theorem drive_eq_self_iff (h : State.SameDuties i s t) {d : Drive} (hread : opReads i d.port = true) :
    t.drive d = t ↔ s.drive d = s := by
  rw [State.drive_eq_self_iff, State.drive_eq_self_iff, h.params, h.place, h.inp,
    Drive.onPorts_eq_self_congr (fun hp => h.sin_of_read (hp ▸ hread)) (fun hp => h.ibuf_of_read (hp ▸ hread))]

theorem breaksPortDuty_eq (h : State.SameDuties i s t) (e : HostEvent) : breaksPortDuty i t e = breaksPortDuty i s e := by
  cases e with
  | drive d =>
    cases hread : opReads i d.port with
    | false => simp only [breaksPortDuty, hread, Bool.false_and]
    | true => simp only [breaksPortDuty, ne_eq, h.drive_eq_self_iff hread]
  | _ => rfl

theorem breaksDuty_eq (h : State.SameDuties i s t) (e : HostEvent) : breaksDuty i t e = breaksDuty i s e := by
  rw [breaksDuty, breaksDuty, h.breaksPortDuty_eq, h.event_memory_eq, h.opMemory_eq]

theorem duringOp_isSome_eq :
    ∀ {es : List HostEvent} {s t : State}, State.SameDuties i s t → (duringOp i es t).isSome = (duringOp i es s).isSome
  | [], _, _, _ => rfl
  | e :: rest, s, t, h => by
    rw [duringOp, duringOp, h.breaksDuty_eq]
    split
    · rfl
    · exact duringOp_isSome_eq (h.after_event e)

end State.SameDuties

/-- The duties may be judged at the state an operation starts in or at the one it leaves. -/
theorem dutiesKept_of_exec {i : Instr} {s t : State} (h : exec i s = .next t) : dutiesKept t i = dutiesKept s i := by
  rw [dutiesKept, dutiesKept, exec_host h]
  cases s.host with
  | nil => rfl
  | cons turn rest => exact ((sameDuties_of_exec h).withHost rest).duringOp_isSome_eq

/-! ### The refusals of a step, and when it completes (R96, R97, R98, R99) -/

/-- The host's turn completes where its duties are kept, and is refused for a broken duty where they are not. -/
theorem hostTurn_cases (i : Instr) (s : State) :
    (dutiesKept s i = true ∧ ∃ u, hostTurn i s = .next u) ∨
    (dutiesKept s i = false ∧ hostTurn i s = .refused .hostDutyBroken) := by
  unfold hostTurn dutiesKept
  cases s.host with
  | nil => exact .inl ⟨rfl, s, rfl⟩
  | cons turn rest =>
    dsimp only
    cases duringOp i turn.during (s.withHost rest) with
    | none => exact .inr ⟨rfl, rfl⟩
    | some u => exact .inl ⟨rfl, _, rfl⟩

/-- What the step of an operation that is ready can answer, and on which states. -/
theorem step_cases_of_opReady {s : State} {i : Instr} (hop : s.inp.op = encode i) (h : opReady s i = true) :
    (s.seq.busy = false ∧ dutiesKept s i = true ∧ ∃ u, step s = .next u) ∨
    ((s.seq.busy = true ∨ dutiesKept s i = false) ∧ step s = .refused .hostDutyBroken) := by
  have hexec := exec_of_opReady h
  rw [step_of_exec_next (hop ▸ decode_encode i) hexec, ← dutiesKept_of_exec hexec]
  cases s.seq.busy with
  | true => exact .inr ⟨.inl rfl, rfl⟩
  | false => exact (hostTurn_cases i _).imp (.intro rfl) (.imp_left .inr)

/-- The reasons an operation has of its own, in the order of R99. -/
theorem opRefusal_eq_some_iff (s : State) (i : Instr) (r : Refusal) :
    opRefusal s i = some r ↔
      ((i = .cvtHS ∨ i = .cvtSH) ∧ s.params.hasCvt = false ∧ r = .cvtAbsent) ∨
      (streamOverlaps s i = true ∧ r = .bufferOverlap) ∨
      (streamOverlaps s i = false ∧ streamExceeds s i = true ∧ r = .streamTooLong) := by
  cases i with
  | encs => simpa [opRefusal, streamOverlaps, streamExceeds] using streamRefusal_eq_some_iff s _ _ _ r
  | decs => simpa [opRefusal, streamOverlaps, streamExceeds] using streamRefusal_eq_some_iff s _ _ _ r
  | _ => simp [opRefusal, streamOverlaps, streamExceeds, @eq_comm _ r]

/-- A step on an operation's code is refused for the operation's own reason, or for a duty broken around an operation that is ready. -/
theorem step_eq_refused_iff {s : State} {i : Instr} (hop : s.inp.op = encode i) (r : Refusal) :
    step s = .refused r ↔
      opRefusal s i = some r ∨
      (opReady s i = true ∧ (s.seq.busy = true ∨ dutiesKept s i = false) ∧ r = .hostDutyBroken) := by
  rw [← opRefusal_eq_none_iff]
  cases hown : opRefusal s i with
  | some r' =>
    rw [step_of_exec_refused (hop ▸ decode_encode i) ((exec_eq_refused_iff i s r').mpr hown)]
    simp
  | none =>
    obtain ⟨hidle, hkept, u, hu⟩ | ⟨hbroken, href⟩ := step_cases_of_opReady hop ((opRefusal_eq_none_iff s i).mp hown)
    · simp [hu, hidle, hkept]
    · simp [href, hbroken, @eq_comm _ r]

/-- Settles O4: the operation's own reasons come in their order, then a duty broken around it. -/
theorem stepRefusalsFollowTheListedOrder : Obligations.StepRefusalsFollowTheListedOrder := fun s i r hop => by
  rw [step_eq_refused_iff hop, opRefusal_eq_some_iff, or_assoc, or_assoc]

/-- Settles O5: a step that completes ran an operation that was ready, and such a step completes unless a duty is broken. -/
theorem stepCompletesExactlyWhenNotRefused : Obligations.StepCompletesExactlyWhenNotRefused := fun s => by
  constructor
  · rintro ⟨u, hu⟩
    obtain ⟨i, t, hop, hexec, -, -⟩ := step_next_cases hu
    have hready : opReady s i = true := (opRefusal_eq_none_iff s i).mp ((exec_completes_iff i s).mp ⟨t, hexec⟩)
    obtain ⟨hidle, hkept, -⟩ | ⟨-, href⟩ := step_cases_of_opReady hop hready
    · exact ⟨i, hop, hready, hidle, hkept⟩
    · cases hu.symm.trans href
  · rintro ⟨i, hop, hready, hidle, hkept⟩
    obtain ⟨-, -, hnext⟩ | ⟨hbroken, -⟩ := step_cases_of_opReady hop hready
    · exact hnext
    · simp [hidle, hkept] at hbroken

/-! ### Several instances in one joint step (R99, R105) -/

/-- What an instance does in a joint step: its own step if it starts, and else nothing. -/
def stepIfStarts (p : Bool × State) : Host.Outcome State Fault Refusal := if p.1 then step p.2 else .next p.2

/-- Instances that complete are each in the state of their own part. -/
theorem forall₂_of_stepEach_next :
    ∀ {sys : List (Bool × State)} {ts : List State}, stepEach sys = .next ts →
      List.Forall₂ (fun p t => stepIfStarts p = .next t) sys ts
  | [], _, h => by cases h; exact .nil
  | (starts, s) :: rest, ts, h => by
    unfold stepEach at h
    split at h
    · cases h
    · cases h
    · next t ht =>
      split at h
      · cases h
      · cases h
      · next us hus => cases h; exact .cons ht (forall₂_of_stepEach_next hus)

/-- A refused instance is recorded if every instance before it that starts completes. -/
theorem stepEach_append_refused {after : List (Bool × State)} {s : State} {r : Refusal} (hs : step s = .refused r) :
    ∀ {before : List (Bool × State)}, (∀ p ∈ before, p.1 = true → SafeStep p.2) →
      stepEach (before ++ (true, s) :: after) = .refused r
  | [], _ => by simp only [List.nil_append, stepEach, if_true, hs]
  | (starts, a) :: rest, h => by
    obtain ⟨hhead, hrest⟩ := List.forall_mem_cons.mp h
    have hown : ∃ t, stepIfStarts (starts, a) = .next t := by
      cases starts with
      | true => exact hhead rfl
      | false => exact ⟨a, rfl⟩
    obtain ⟨t, ht⟩ := hown
    dsimp only [stepIfStarts] at ht
    simp only [List.cons_append, stepEach, ht, stepEach_append_refused hs hrest]

/-- Settles O47: a joint step that completes is a list of parts, each of one instance alone. -/
theorem instancesDoNotInteract : Obligations.InstancesDoNotInteract := fun sys ts h => by
  obtain ⟨heach, -⟩ := (stepTogether_eq_next_iff sys ts).mp h
  obtain ⟨hlen, hparts⟩ := List.forall₂_iff_get.mp (forall₂_of_stepEach_next heach)
  refine ⟨hlen.symm, fun k starts s hk => ?_⟩
  obtain ⟨hlt, hget⟩ := List.getElem?_eq_some_iff.mp hk
  have hpart := hparts k hlt (hlen ▸ hlt)
  rw [List.get_eq_getElem, hget] at hpart
  refine ⟨_, List.getElem?_eq_getElem (hlen ▸ hlt), ?_, ?_⟩
  · rintro rfl
    exact hpart
  · rintro rfl
    cases hpart
    rfl

/-- Settles O52: the instances one by one are refused with the first refused one's reason, before any clash is looked for. -/
theorem firstRefusedInstanceIsRecorded : Obligations.FirstRefusedInstanceIsRecorded := fun _ _ _ _ hbefore hs =>
  stepTogether_of_stepEach_refused (stepEach_append_refused hs hbefore)

end Sys2Proof.Machine

/-! PROOFS. The statements of family 70_reset_and_hazards: what a host may and may not do at the ports while an operation runs (R109,
R111, R112). -/

namespace Sys2Proof.Machine

/-! ### Drives of different inputs (R14)

A turn is judged event by event, each at the state reached before it. For a drive of an input the operation reads, only that input's
own value matters, and no drive of another input changes it. -/

/-- The input of a drive holds the driven value already. -/
def State.holdsDriven (s : State) : Drive → Prop
  | .op v => s.inp.op = v
  | .tdIn v => s.inp.tdIn = v % 2 ^ s.params.tdW
  | .bsIn v => s.inp.bsIn = v % 2 ^ s.params.bsW
  | .xIn v => s.inp.xIn = v
  | .yIn v => s.inp.yIn = v
  | .recIn v => s.inp.recIn = v
  | .fIn v => s.inp.fIn = v
  | .hIn v => s.inp.hIn = v
  | .sin v => s.inp.sin = v.map (Sample.clip s.params)
  | .ibuf v => s.inp.ibuf = Buffer.ofBytes v
  | .sinRegion r => s.place.sinAt = r
  | .ibufRegion a => s.place.ibufAt = a
  | .obufRegion a => s.place.obufAt = a
  | .soutRegion r => s.place.soutAt = r

theorem State.drive_eq_self_iff_holdsDriven (s : State) (d : Drive) : s.drive d = s ↔ s.holdsDriven d := by
  rw [State.drive_eq_self_iff]
  obtain ⟨_, ⟨_, _, _, _, _, _, _, _, _, _⟩, ⟨_, _, _, _⟩, _, _, _, _⟩ := s
  cases d <;> simp [Drive.onPorts, Drive.onPlace, State.holdsDriven, eq_comm]

/-- A drive leaves the value of every input but its own. -/
theorem State.holdsDriven_drive {d d' : Drive} (hport : d.port ≠ d'.port) (s : State) :
    (s.drive d').holdsDriven d ↔ s.holdsDriven d := by
  cases d <;> cases d' <;> first | exact Iff.rfl | exact absurd rfl hport

/-! ### A duty broken anywhere in the turn (R109, R111, R112) -/

theorem breaksPortDuty_drive_iff (i : Instr) (s : State) (d : Drive) :
    breaksPortDuty i s (.drive d) = true ↔ opReads i d.port = true ∧ ¬ s.holdsDriven d := by
  rw [breaksPortDuty, Bool.and_eq_true, decide_eq_true_iff, ne_eq, State.drive_eq_self_iff_holdsDriven]

/-- An event that breaks no duty of the ports does not change which events do. -/
theorem breaksPortDuty_eventEffect {i : Instr} {s : State} {e' : HostEvent} (h : breaksPortDuty i s e' = false)
    (e : HostEvent) : breaksPortDuty i (eventEffect s e') e = breaksPortDuty i s e := by
  cases e' with
  | drive d' =>
    cases e with
    | drive d =>
      rw [eventEffect, Bool.eq_iff_iff, breaksPortDuty_drive_iff, breaksPortDuty_drive_iff]
      refine and_congr_right fun hread => not_congr ?_
      by_cases hport : d.port = d'.port
      · have hsame : s.drive d' = s := by simpa [breaksPortDuty, ← hport, hread] using h
        rw [hsame]
      · exact State.holdsDriven_drive hport s
    | _ => rfl
  | _ => rfl

/-- A turn with an event that breaks a duty of the ports is refused, wherever in the turn the event comes. -/
theorem duringOp_eq_none_of_mem {i : Instr} {e : HostEvent} {es : List HostEvent} {s : State} (hmem : e ∈ es)
    (he : breaksPortDuty i s e = true) : duringOp i es s = none := by
  induction es generalizing s with
  | nil => cases hmem
  | cons e' rest ih =>
    rw [duringOp]
    split
    · rfl
    · next hkept =>
      rw [breaksDuty, Bool.or_eq_true, not_or, Bool.not_eq_true] at hkept
      obtain ⟨hport, -⟩ := hkept
      obtain rfl | hmem := List.mem_cons.mp hmem
      · cases he.symm.trans hport
      · exact ih hmem ((breaksPortDuty_eventEffect hport e).trans he)

/-- An event breaks a duty of the ports after the operation, whatever the host's plan, just where it does before. -/
theorem breaksPortDuty_next {i : Instr} {s t : State} (h : exec i s = .next t) (turns : List Turn) (e : HostEvent) :
    breaksPortDuty i (t.withHost turns) e = breaksPortDuty i s e := by
  rw [← (sameDuties_of_exec h).breaksPortDuty_eq]
  cases e with
  | drive d => rw [Bool.eq_iff_iff, breaksPortDuty_drive_iff, breaksPortDuty_drive_iff]; rfl
  | _ => rfl

/-- A step is refused for an event of its turn that breaks a duty of the ports on the state the step starts from. -/
theorem step_of_breaksPortDuty {s t : State} {i : Instr} {turn : Turn} {rest : List Turn} {e : HostEvent}
    (hop : s.inp.op = encode i) (hexec : exec i s = .next t) (hhost : s.host = turn :: rest) (hmem : e ∈ turn.during)
    (he : breaksPortDuty i s e = true) : step s = .refused .hostDutyBroken :=
  step_of_brokenTurn hop hexec hhost (duringOp_eq_none_of_mem hmem ((breaksPortDuty_next hexec rest e).trans he))

/-- Settles O43: each of these events breaks a duty of the ports on the state the step starts from. -/
theorem brokenHostDutyIsRefused : Obligations.BrokenHostDutyIsRefused := fun s t i turn rest hop hexec hhost => by
  constructor
  · rintro e hmem (rfl | rfl | ⟨p, rfl, hdrives⟩)
    · exact step_of_breaksPortDuty hop hexec hhost hmem rfl
    · exact step_of_breaksPortDuty hop hexec hhost hmem rfl
    · exact step_of_breaksPortDuty hop hexec hhost hmem hdrives
  · intro d hmem hread hchange
    have hne : s.drive d ≠ s := fun hsame => by simp [hsame] at hchange
    exact step_of_breaksPortDuty hop hexec hhost hmem (by simp [breaksPortDuty, hread, hne])

/-! ### Inputs the operation does not read (R36, R111) -/

/-- A drive of an input the operation does not read breaks no duty where its writes stay clear of all the operation's memory and
its reads of what the operation writes. -/
theorem breaksDuty_drive_eq_false {i : Instr} {s : State} {d : Drive} (hunread : opReads i d.port = false)
    (hwrites : ∀ r ∈ (d.memory s).writes, ∀ x, r.holds x → ¬ (opReadsAt s i x ∨ opWritesAt s i x))
    (hreads : ∀ r ∈ (d.memory s).reads, ∀ x, r.holds x → ¬ opWritesAt s i x) : breaksDuty i s (.drive d) = false := by
  have hclear : ¬ (d.memory s).conflicts (opMemory i s) = true := by
    rw [MemUse.conflicts_iff]
    simp only [← opReadsAt_iff, ← opWritesAt_iff]
    rintro ⟨x, ⟨⟨r, hr, hx⟩, hop⟩ | ⟨⟨r, hr, hx⟩, hop⟩⟩
    · exact hwrites r hr x hx hop
    · exact hreads r hr x hx hop
  rw [breaksDuty, breaksPortDuty, hunread, Bool.false_and, Bool.false_or]
  exact Bool.eq_false_iff.mpr hclear

/-- Settles O44: the drive breaks no duty, so it takes its effect on the state the operation leaves. -/
theorem unreadInputsMayChangeDuringOperation : Obligations.UnreadInputsMayChangeDuringOperation :=
  fun s t i d hop hidle hhost hunread hwrites hreads hexec => by
    have hduty : breaksDuty i (t.withHost []) (.drive d) = false := by
      rw [breaksDuty, breaksPortDuty_next hexec, HostEvent.memory_next hexec, opMemory_next hexec, ← breaksDuty]
      exact breaksDuty_drive_eq_false hunread hwrites hreads
    have hduring : duringOp i [.drive d] (t.withHost []) = some ((t.withHost []).drive d) := by
      rw [duringOp, hduty]; rfl
    refine ⟨(t.withHost []).drive d, ?_, rfl, rfl, rfl, rfl⟩
    rw [step_of_exec_next (hop ▸ decode_encode i) hexec, hidle]
    exact hostTurn_of_duringOp ((exec_host hexec).trans hhost) hduring

end Sys2Proof.Machine
